-- ==== Sys2Proof/Word.lean ====
section
/-! DEFINITION. The widths of 00_scope.md R7 to R9: register words and bus data of 32 bits, operands of 256
bits, the datapath's working width of 512 bits. -/

namespace Sys2Proof

/-- One byte lane of the bus (20_memory.md R58). -/
abbrev Byte := BitVec 8

/-- A register word (00_scope.md R8). -/
abbrev Word := BitVec 32

/-- A latched operand (00_scope.md R9, 10_state.md R32). -/
abbrev Operand := BitVec 256

/-- A datapath register (00_scope.md R7, 10_state.md R34). -/
abbrev Wide := BitVec 512

end Sys2Proof
end

