-- ==== Sys2Proof/Config.lean ====
section
/-! DEFINITION. The constants that the spec fixes for the block. The spec's open parameters (BASE, N_INST, the
latencies) are data of the model and stand in Machine/Platform.lean and in State's list of turns (log 10, log 13). -/

namespace Sys2Proof.Config

/-- The working width W (00_scope.md R7). -/
def W : Nat := 512

/-- The modulus p = 2^255 - 19, hard-wired (00_scope.md R16). -/
def p : Nat := 0x7fffffffffffffffffffffffffffffffffffffffffffffffffffffffffffffed

/-- The constant that the ID register reads as (10_state.md R24). -/
def idValue : Word := 0x4D4D2501

end Sys2Proof.Config
end

