-- ==== Sys2Proof/Syntax.lean ====
section
/-! DEFINITION. The commands of the block: one constructor per row of spec/opcode_table.json. -/

namespace Sys2Proof

/-- The four commands (30_encoding.md R73). A command word carries no operand field (R72): the operands are always
OPA and OPB and the destination is always RES. -/
inductive Instr where
  /-- NOP, word 0x00000000 (40_arith_commands.md R102). -/
  | nop
  /-- MUL, word 0x00000001 (R103). -/
  | mul
  /-- MULRAW, word 0x00000002 (R105). -/
  | mulraw
  /-- RED, word 0x00000003 (R106). -/
  | red
  deriving DecidableEq, Repr

end Sys2Proof
end

