-- ==== Sys2Proof/Machine/HostSide.lean ====
section
/-! DEFINITION. What stands between the block and the world outside it: bus transactions and responses
(20_memory.md R50), register names (30_encoding.md R71), the host's statements (R78, R79), and which agent takes
a step (20_memory.md R52). Types only. -/

namespace Sys2Proof.Machine

/-- One bus transaction, as the ports carry it (20_memory.md R50). `addr` is the byte offset in the window. -/
structure Txn where
  we    : Bool
  addr  : BitVec 8
  be    : BitVec 4
  wdata : Word
  deriving DecidableEq, Repr

/-- The response of a transaction (00_scope.md R15): a read's data, a write's OK, or BUSERR. -/
inductive Resp where
  | data (w : Word)
  | ok
  | busErr
  deriving DecidableEq, Repr

/-- The registers that the window reaches (30_encoding.md R70, R71). -/
inductive Reg where
  | id
  | ctrl
  | cmd
  | status
  | opa (i : Fin 8)
  | opb (i : Fin 8)
  | res (j : Fin 16)
  deriving DecidableEq, Repr

/-- A host variable (30_encoding.md R78, R79): a name (a number here, log 9), the word `r.w[j]` of a name that the
RDR forms read, or the variable `s` of the F-forms. -/
inductive Var where
  | name (n : Nat)
  | word (n : Nat) (j : Nat)
  | status
  deriving DecidableEq, Repr

/-- Host arithmetic (30_encoding.md R78: "expr exact over naturals, then mod p where written"), with the bit slice
`e[hi:lo]` of 00_scope.md R13 that R79 writes. -/
inductive Expr where
  | lit (n : Nat)
  | var (x : Var)
  | add (e f : Expr)
  | sub (e f : Expr)
  | mul (e f : Expr)
  | modP (e : Expr)
  | slice (e : Expr) (hi lo : Nat)
  deriving DecidableEq, Repr

/-- A statement of a host program (30_encoding.md R78). `access` is one bare bus transaction, of any width and
alignment, whose response stops nothing. -/
inductive Stmt where
  | access (t : Txn)
  | wr (off : BitVec 8) (data : Expr)
  | rd (off : BitVec 8) (x : Var)
  | poll (off : BitVec 8) (mask val : Word)
  | check (x val : Expr)
  | assign (x : Var) (e : Expr)
  | cmd (i : Instr)
  deriving DecidableEq, Repr

/-- The pseudo-instructions of 30_encoding.md R79. -/
inductive Pseudo where
  | lda (v : Expr)
  | ldb (v : Expr)
  | wait
  | waitDone
  | rdr8 (r : Nat)
  | rdr16 (r : Nat)
  | ack
  | srst
  | ien
  | fmul (a b : Expr) (r : Nat)
  | fsqr (a : Expr) (r : Nat)
  | fmulraw (a b : Expr) (r : Nat)
  | fred (x : Expr) (r : Nat)
  deriving DecidableEq, Repr

/-- Why a host program stopped with an error (30_encoding.md R78). `unbound` is the model's own: an expression reads
a variable that the program never set (log 9). -/
inductive HostStop where
  | busErr
  | checkFailed
  | unbound
  deriving DecidableEq, Repr

/-- Who takes a step. `host`: the bus master's next statement. `complete`: the completion step of
40_arith_commands.md R108. `clock`: one clock of the reference datapath of 41_reference_datapath.md.
`hardReset`: the platform drives rst_n low (70_reset_and_hazards.md R180). -/
inductive Turn where
  | host
  | complete
  | clock
  | hardReset
  deriving DecidableEq, Repr

end Sys2Proof.Machine
end

