-- ==== Sys2Proof/WellFormed.lean ====
section
/-! DEFINITION. Well-formedness of what is written down: command words (30_encoding.md R72, R73), and the literals of
host statements and pseudo-instructions (R78, R79). -/

namespace Sys2Proof

/-- The reserved field, bits 31:4 of a command word, is 0 (30_encoding.md R72). -/
def reservedFieldZero (v : Word) : Bool := v.extractLsb' 4 28 == 0#28

/-- The OP field, bits 3:0, is assigned to a command (30_encoding.md R73). -/
def opAssigned (v : Word) : Bool := (v.extractLsb' 0 4).toNat < 4

/-- A legal command word (30_encoding.md R76: every other word is illegal). -/
def commandWordWf (v : Word) : Bool := reservedFieldZero v && opAssigned v

/-- Every command is well formed: it has no operand field that could be out of range (30_encoding.md R72). -/
def Instr.wf : Instr → Bool
  | .nop => true
  | .mul => true
  | .mulraw => true
  | .red => true

namespace Machine

/-- A literal that stands for an `n`-bit value fits `n` bits; a computed value is checked by nobody (R78). -/
def Expr.fits (n : Nat) : Expr → Bool
  | .lit v => v < 2 ^ n
  | _ => true

/-- `WR off, imm32`: the datum of a write is a 32-bit value (30_encoding.md R78). -/
def Stmt.wf : Stmt → Bool
  | .wr _ e => e.fits 32
  | _ => true

/-- "`v` is a 256-bit value, `x` a 512-bit value" (30_encoding.md R79). -/
def Pseudo.wf : Pseudo → Bool
  | .lda v => v.fits 256
  | .ldb v => v.fits 256
  | .fmul a b _ => a.fits 256 && b.fits 256
  | .fsqr a _ => a.fits 256
  | .fmulraw a b _ => a.fits 256 && b.fits 256
  | .fred x _ => x.fits 512
  | _ => true

end Machine

end Sys2Proof
end

