-- ==== Sys2Proof/Decode.lean ====
section
/-! DEFINITION. Decoding and encoding of command words (30_encoding.md R72 to R77). -/

namespace Sys2Proof

/-- Why a word is no command. DESIGN CHOICE: the names; the block makes no difference between the first two, both are
ILLEGAL (R74, R76), and it never sees fewer than four bytes (log 19). -/
inductive DecodeError where
  /-- Bits 31:4 are not all 0. -/
  | reservedBits
  /-- OP is 0x4 to 0xF. -/
  | reservedOp
  /-- Fewer than four bytes. -/
  | truncated
  deriving DecidableEq, Repr

/-- Field OP, bits 3:0 (30_encoding.md R72). -/
def opField (v : Word) : BitVec 4 := v.extractLsb' 0 4

/-- Field RSV, bits 31:4 (30_encoding.md R72). -/
def rsvField (v : Word) : BitVec 28 := v.extractLsb' 4 28

/-- The decoder of 30_encoding.md R74, total on every 32-bit value. -/
def decode (v : Word) : Except DecodeError Instr :=
  if rsvField v ≠ 0 then .error .reservedBits
  else if opField v = 0x0 then .ok .nop
  else if opField v = 0x1 then .ok .mul
  else if opField v = 0x2 then .ok .mulraw
  else if opField v = 0x3 then .ok .red
  else .error .reservedOp

/-- A word from its byte lanes, lane 0 first (20_memory.md R58 (a)). -/
def wordOfBytes (b0 b1 b2 b3 : Byte) : Word := b3 ++ b2 ++ b1 ++ b0

/-- Byte lane `k` of a word, bits 8k+7:8k (20_memory.md R50, R58 (a)). -/
def laneByte (w : Word) (k : Nat) : Byte := w.extractLsb' (8 * k) 8

/-- Decoding from a stream of bytes at increasing addresses: a command is one 32-bit word whatever the word is
(30_encoding.md R77). Answers the command and the bytes after it. -/
def decodeBytes : List Byte → Except DecodeError (Instr × List Byte)
  | b0 :: b1 :: b2 :: b3 :: rest =>
    match decode (wordOfBytes b0 b1 b2 b3) with
    | .ok i => .ok (i, rest)
    | .error e => .error e
  | _ => .error .truncated

/-- The command word of each command (30_encoding.md R73, column match). -/
def encode : Instr → Word
  | .nop => 0x00000000
  | .mul => 0x00000001
  | .mulraw => 0x00000002
  | .red => 0x00000003

/-- A word's bytes at increasing addresses (20_memory.md R58). -/
def bytesOfWord (w : Word) : List Byte := [laneByte w 0, laneByte w 1, laneByte w 2, laneByte w 3]

/-- A command's bytes at increasing addresses. -/
def encodeBytes (i : Instr) : List Byte := bytesOfWord (encode i)

/-- The word that the opcode table numbers, its bits above `nbits` 0, laid out as bytes and decoded. -/
def decodeTableWord (nbits w : Nat) : Option Instr :=
  match decodeBytes (bytesOfWord (BitVec.ofNat 32 (w % 2 ^ nbits))) with
  | .ok (i, _) => some i
  | .error _ => none

end Sys2Proof
end

