-- ==== Sys2Proof/Machine/State.lean ====
section
/-! DEFINITION. Everything the machine holds: the block's state tuple (10_state.md R20), and around it the bus
master, the order of the agents' turns and the last response on the bus. -/

namespace Sys2Proof.Machine

/-- The block has no trap and no fault state (60_exceptions.md R160), so no step of the machine faults (log 11). -/
inductive Fault where
  deriving DecidableEq, Repr

/-- Why an instruction has no meaning. -/
inductive Refusal where
  /-- Raised by an arm of exec that has no meaning yet (safe). No arm raises it: every command has its meaning. -/
  | notModelled (mnemonic : String)
  deriving DecidableEq, Repr

/-- Which loop of the reference datapath runs (10_state.md R34). -/
inductive Phase where
  | idle
  | mult
  | redc
  | fin
  deriving DecidableEq, Repr

/-- The datapath registers (10_state.md R34), hidden from the host. -/
structure Datapath where
  acc   : Wide
  wa    : Wide
  wb    : Wide
  md    : Wide
  cnt   : BitVec 10
  phase : Phase
  deriving DecidableEq, Repr

/-- PHASE resets to IDLE (10_state.md R34, R36). The zeros are a DESIGN CHOICE, unsafe: the spec leaves ACC, WA, WB,
MD and CNT unspecified after reset (log 3). -/
def Datapath.reset : Datapath :=
  { acc := 0, wa := 0, wb := 0, md := 0, cnt := 0, phase := .idle }

/-- The state of the block, exactly the tuple of 10_state.md R20. -/
structure Block where
  opa     : Vector Word 8
  opb     : Vector Word 8
  res     : Vector Word 16
  ie      : Bool
  lastcmd : Word
  busy    : Bool
  done    : Bool
  err     : Bool
  ecode   : BitVec 4
  la      : Operand
  lb      : Operand
  opif    : Instr
  dp      : Datapath
  deriving DecidableEq, Repr

/-- The reset values of 10_state.md R36. -/
def Block.reset : Block :=
  { opa := Vector.replicate 8 0
    opb := Vector.replicate 8 0
    res := Vector.replicate 16 0
    ie := false
    lastcmd := 0x00000000
    busy := false
    done := false
    err := false
    ecode := 0
    la := 0
    lb := 0
    opif := .nop
    dp := Datapath.reset }

/-- The bus master: the statements it still has to perform, the variables it has set, and why its program stopped,
if it stopped with an error (30_encoding.md R78). -/
structure Master where
  program : List Stmt
  vars    : List (Var × Int)
  stop    : Option HostStop
  deriving DecidableEq, Repr

/-- The machine. `turns` says which agent takes each coming step: every finite order of completion, clocks, host
transactions and hard resets is some list (20_memory.md R52, log 1, log 2). `resp` is the response of the transaction
that the last step performed, if it performed one (log 6). -/
structure State where
  blk    : Block
  master : Master
  turns  : List Turn
  resp   : Option Resp
  deriving DecidableEq, Repr

/-- The machine right after the hard reset (10_state.md R36), with no host program loaded and no turn planned
(DESIGN CHOICE, log 2, log 7, log 9). -/
def State.reset : State :=
  { blk := Block.reset
    master := { program := [], vars := [], stop := none }
    turns := []
    resp := none }

end Sys2Proof.Machine
end

