-- ==== Sys2Proof/Machine/Operands.lean ====
section
/-! DEFINITION. Multi-word values and operand assembly (00_scope.md R13, R14; 30_encoding.md R75; 20_memory.md R58). -/

namespace Sys2Proof.Machine

/-- `v[hi:lo]` (00_scope.md R13). DESIGN CHOICE, unsafe: with hi < lo, where R13 describes no bits, it is 0 (log 17). -/
def slice (v hi lo : Nat) : Nat := (v >>> lo) % 2 ^ (hi + 1 - lo)

/-- The value of a list of words, word 0 least significant. -/
def valWords : List Word → Nat
  | [] => 0
  | w :: ws => w.toNat + 2 ^ 32 * valWords ws

/-- `val(X)`, the sum of `X[i] * 2^(32 i)` (00_scope.md R14). -/
def val {n : Nat} (X : Vector Word n) : Nat := valWords X.toList

/-- `words_n(v)`: word i is `v[32i+31:32i]` (00_scope.md R14). -/
def words (n v : Nat) : Vector Word n :=
  Vector.ofFn fun i => BitVec.ofNat 32 (slice v (32 * i.val + 31) (32 * i.val))

/-- `A = val(OPA[0..7])`, the operand that acceptance latches into LA (30_encoding.md R75). -/
def operandA (b : Block) : Operand := BitVec.ofNat 256 (val b.opa)

/-- `B = val(OPB[0..7])`, the operand that acceptance latches into LB (30_encoding.md R75). -/
def operandB (b : Block) : Operand := BitVec.ofNat 256 (val b.opb)

/-- RED's 512-bit input `{LB, LA}` (30_encoding.md R75). -/
def redInput (la lb : Operand) : Wide := lb ++ la

/-- A datapath register as 16 words of 32 bits, word 0 first (41_reference_datapath.md R131). -/
def wideWords (x : Wide) : List Word := (words 16 x.toNat).toList

/-- The datapath register that a list of words stands for. -/
def wideOfWords (ws : List Word) : Wide := BitVec.ofNat 512 (valWords ws)

end Sys2Proof.Machine
end

