-- ==== Sys2Proof/Machine/Flags.lean ====
section
/-! DEFINITION. STATUS, CTRL's stored bit and the interrupt line (10_state.md R25 to R28, R30). The block has no
arithmetic flag (R30). -/

namespace Sys2Proof.Machine

/-- A flag as one bit. -/
def flagBit (f : Bool) : BitVec 1 := BitVec.ofBool f

/-- `zext_32({ECODE, 0b0, ERR, DONE, BUSY})` (20_memory.md R53). -/
def statusWord (b : Block) : Word :=
  (b.ecode ++ (0#1) ++ flagBit b.err ++ flagBit b.done ++ flagBit b.busy).setWidth 32

/-- `zext_32(CTRL.IE)`: SRST and the reserved bits read 0 (10_state.md R25). -/
def ctrlWord (b : Block) : Word := (flagBit b.ie).setWidth 32

/-- The DONE half of a STATUS write: writing 1 to bit 1 clears it (10_state.md R27). -/
def clearDone (v : Word) (b : Block) : Block :=
  if v.getLsbD 1 then { b with done := false } else b

/-- The ERR half of a STATUS write: writing 1 to bit 2 clears ERR and ECODE (10_state.md R27). -/
def clearErr (v : Word) (b : Block) : Block :=
  if v.getLsbD 2 then { b with err := false, ecode := 0 } else b

/-- A STATUS write (10_state.md R27, 60_exceptions.md R167): what a handler does instead of a return. -/
def writeStatus (v : Word) (b : Block) : Block := clearErr v (clearDone v b)

/-- `irq = CTRL.IE and (STATUS.DONE or STATUS.ERR)` (10_state.md R28). -/
def irq (b : Block) : Bool := b.ie && (b.done || b.err)

end Sys2Proof.Machine
end

