-- ==== Sys2Proof/Machine/Datapath.lean ====
section
/-! DEFINITION. The reference datapath (41_reference_datapath.md R130 to R140): the source's two loops over the hidden
registers, one iteration at a time. -/

namespace Sys2Proof.Machine

/-- R131's scan, most significant word first: the first differing word decides. -/
def geScan : List Word → List Word → Bool
  | x :: xs, y :: ys => if x = y then geScan xs ys else decide (y.toNat < x.toNat)
  | _, _ => true

/-- `x ≥ y` by words (41_reference_datapath.md R131). -/
def wideGe (x y : Wide) : Bool := geScan (wideWords x).reverse (wideWords y).reverse

/-- R132's chain: each sum word and the carry into the next. The last carry is discarded. -/
def addWords : Nat → List Word → List Word → List Word
  | c, x :: xs, y :: ys =>
    BitVec.ofNat 32 (x.toNat + y.toNat + c) :: addWords ((x.toNat + y.toNat + c) >>> 32) xs ys
  | _, _, _ => []

/-- `(x + y) mod 2^W` by words (41_reference_datapath.md R132). -/
def wideAdd (x y : Wide) : Wide := wideOfWords (addWords 0 (wideWords x) (wideWords y))

/-- R133's chain: each difference word and the borrow into the next. -/
def subWords : Nat → List Word → List Word → List Word
  | br, x :: xs, y :: ys =>
    BitVec.ofInt 32 ((x.toNat : Int) - y.toNat - br) ::
      subWords (if (x.toNat : Int) - y.toNat - br < 0 then 1 else 0) xs ys
  | _, _, _ => []

/-- `x - y` by words (41_reference_datapath.md R133). -/
def wideSub (x y : Wide) : Wide := wideOfWords (subWords 0 (wideWords x) (wideWords y))

/-- `rotl_W(x, 1)` (00_scope.md R15, 41_reference_datapath.md R134). -/
def rotl1 (x : Wide) : Wide := (x <<< 1) ||| (x >>> (Config.W - 1))

/-- `rotr_W(x, 1)` (00_scope.md R15, 41_reference_datapath.md R134). -/
def rotr1 (x : Wide) : Wide := (x >>> 1) ||| (x <<< (Config.W - 1))

/-- Entry into the multiply loop (41_reference_datapath.md R135). -/
def multEnter (la lb : Operand) (d : Datapath) : Datapath :=
  { d with acc := 0, wa := la.setWidth 512, wb := lb.setWidth 512, cnt := 0, phase := .mult }

/-- Entry into the reduce loop (41_reference_datapath.md R136): RED loads its input, MUL keeps its product. -/
def redcEnter (op : Instr) (la lb : Operand) (d : Datapath) : Datapath :=
  { d with
    acc := if op = .red then redInput la lb else d.acc
    md := BitVec.ofNat 512 (Config.p <<< (Config.W - 255))
    cnt := 0
    phase := .redc }

/-- What acceptance does to the datapath: PHASE (40_arith_commands.md R101) and the entry of the loop it selects. -/
def datapathEnter (op : Instr) (la lb : Operand) (d : Datapath) : Datapath :=
  match op with
  | .nop => { d with phase := .fin }
  | .mul => multEnter la lb d
  | .mulraw => multEnter la lb d
  | .red => redcEnter .red la lb d

/-- The body of the multiply loop (41_reference_datapath.md R135, R140). -/
def multBody (d : Datapath) : Datapath :=
  { d with
    acc := if d.wb.getLsbD 0 then wideAdd d.acc d.wa else d.acc
    wa := rotl1 d.wa
    wb := rotr1 d.wb
    cnt := d.cnt + 1 }

/-- The multiply loop's exit (41_reference_datapath.md R135): MULRAW is finished, MUL goes on to reduce. -/
def multExit (op : Instr) (la lb : Operand) (d : Datapath) : Datapath :=
  if op = .mulraw then { d with phase := .fin } else redcEnter op la lb d

/-- One clock of the MULT phase: the body while CNT < W, and the exit as soon as CNT is not (R135). -/
def multClock (op : Instr) (la lb : Operand) (d : Datapath) : Datapath :=
  let d1 := if d.cnt.toNat < Config.W then multBody d else d
  if d1.cnt.toNat < Config.W then d1 else multExit op la lb d1

/-- The body of the reduce loop (41_reference_datapath.md R136, R139: the shift is circular). -/
def redcBody (d : Datapath) : Datapath :=
  { d with
    acc := if wideGe d.acc d.md then wideSub d.acc d.md else d.acc
    md := rotr1 d.md
    cnt := d.cnt + 1 }

/-- One clock of the REDC phase: the body while CNT ≤ W, and the exit as soon as CNT is not (R136, log 5). -/
def redcClock (d : Datapath) : Datapath :=
  let d1 := if d.cnt.toNat ≤ Config.W then redcBody d else d
  if d1.cnt.toNat ≤ Config.W then d1 else { d1 with phase := .fin }

/-- The reference latency of each command, in clocks from acceptance to completion (70_reset_and_hazards.md R192). -/
def referenceLatency : Instr → Nat
  | .nop => 1
  | .mulraw => Config.W + 1
  | .red => (Config.W + 1) + 1
  | .mul => Config.W + (Config.W + 1) + 1

end Sys2Proof.Machine
end

