-- ==== Sys2Proof/Machine/Ops.lean ====
section
/-! DEFINITION. The operations that the commands and the bus share: register naming and access, acceptance,
rejection, completion, soft reset. -/

namespace Sys2Proof.Machine

/-- Applies `f` to the state of an outcome that goes on. -/
def mapNext {σ τ φ ρ : Type} (f : σ → τ) : Host.Outcome σ φ ρ → Host.Outcome τ φ ρ
  | .next s => .next (f s)
  | .fault r => .fault r
  | .refused r => .refused r

/-- Changes the block and nothing around it. -/
def State.onBlock (f : Block → Block) (s : State) : State := { s with blk := f s.blk }

/-- Records the response of the transaction that this step performs. -/
def State.respond (r : Resp) (s : State) : State := { s with resp := some r }

/-- Records that this step performs no transaction. -/
def State.quiet (s : State) : State := { s with resp := none }

/-- The register at an offset, none for a reserved one (30_encoding.md R71). -/
def regOf (off : BitVec 8) : Option Reg :=
  if off.toNat = 0x000 then some .id
  else if off.toNat = 0x004 then some .ctrl
  else if off.toNat = 0x008 then some .cmd
  else if off.toNat = 0x00C then some .status
  else if h : 0x040 ≤ off.toNat ∧ off.toNat ≤ 0x05C ∧ off.toNat % 4 = 0 then
    some (.opa ⟨(off.toNat - 0x040) >>> 2, by omega⟩)
  else if h : 0x080 ≤ off.toNat ∧ off.toNat ≤ 0x09C ∧ off.toNat % 4 = 0 then
    some (.opb ⟨(off.toNat - 0x080) >>> 2, by omega⟩)
  else if h : 0x0C0 ≤ off.toNat ∧ off.toNat ≤ 0x0FC ∧ off.toNat % 4 = 0 then
    some (.res ⟨(off.toNat - 0x0C0) >>> 2, by omega⟩)
  else none

/-- Aligned and of full width (20_memory.md R55). -/
def fullWordAccess (off : BitVec 8) (be : BitVec 4) : Bool := off.extractLsb' 0 2 == 0b00#2 && be == 0b1111#4

/-- The register that a legal access reaches; none is BUSERR (20_memory.md R55, R56). -/
def target (t : Txn) : Option Reg := if fullWordAccess t.addr t.be then regOf t.addr else none

/-- What a read of a register returns (20_memory.md R53). A read changes no state. -/
def readReg (b : Block) : Reg → Word
  | .id => Config.idValue
  | .ctrl => ctrlWord b
  | .cmd => b.lastcmd
  | .status => statusWord b
  | .opa i => b.opa[i]
  | .opb i => b.opb[i]
  | .res j => b.res[j]

/-- The byte at a byte offset of the window, if a register stands there: lane `off mod 4` of its word
(20_memory.md R58 (a), (c)). This is a view for statements; no bus access has this width (R59). -/
def windowByte (b : Block) (off : BitVec 8) : Option Byte :=
  (regOf (off &&& 0xFC)).map fun r => laneByte (readReg b r) (off.toNat % 4)

/-- The soft reset: every state element of the block takes its reset value (70_reset_and_hazards.md R182; for the
datapath registers that have none, log 3). -/
def softReset (_ : Block) : Block := Block.reset

/-- A CTRL write (10_state.md R25): with SRST = 1 the IE value is discarded. -/
def writeCtrl (v : Word) (b : Block) : Block :=
  if v.getLsbD 1 then softReset b else { b with ie := v.getLsbD 0 }

/-- The causes of a rejection (60_exceptions.md R161). -/
inductive RejectCode where
  | illegalCmd
  | cmdWhileBusy
  deriving DecidableEq, Repr

/-- The value that ECODE takes (60_exceptions.md R161). -/
def ecodeOf : RejectCode → BitVec 4
  | .illegalCmd => 1
  | .cmdWhileBusy => 2

/-- `raise Reject(code)` (60_exceptions.md R162), the block's only exception entry: it saves nothing and changes
nothing but ERR and ECODE (R168). -/
def reject (c : RejectCode) (b : Block) : Block := { b with err := true, ecode := ecodeOf c }

/-- `Accept(op, v)` (40_arith_commands.md R101). -/
def accept (op : Instr) (v : Word) (b : Block) : Block :=
  { b with
    la := operandA b
    lb := operandB b
    opif := op
    lastcmd := v
    busy := true
    done := false
    dp := datapathEnter op (operandA b) (operandB b) b.dp }

/-- The issue of a legal command (60_exceptions.md R162): rejected while busy, else accepted. -/
def issueLegal (op : Instr) (b : Block) : Block :=
  if b.busy then reject .cmdWhileBusy b else accept op (encode op) b

/-- The completion effects (40_arith_commands.md R109), with the result that goes to RES, if one does. -/
def finish (r : Option Nat) (b : Block) : Block :=
  { b with
    res := match r with
      | some v => words 16 v
      | none => b.res
    busy := false
    done := true
    dp := { b.dp with phase := .idle } }

end Sys2Proof.Machine
end

