-- ==== Sys2Proof/Machine/Commands.lean ====
section
/-! DEFINITION. The four commands (40_arith_commands.md R102, R103, R105, R106): what the CMD write of each does
(its meaning in exec), and what its completion does. -/

namespace Sys2Proof.Machine

/-- `result(MUL, a, b)` (40_arith_commands.md R107). -/
def resultMul (a b : Nat) : Nat := (a * b) % Config.p

/-- `result(MULRAW, a, b)` (40_arith_commands.md R107). -/
def resultMulraw (a b : Nat) : Nat := a * b

/-- `result(RED, a, b)` (40_arith_commands.md R107). -/
def resultRed (a b : Nat) : Nat := (b * 2 ^ 256 + a) % Config.p

/-- The result function: what a command writes to RES, none for NOP (40_arith_commands.md R107). -/
def result : Instr → Nat → Nat → Option Nat
  | .nop, _, _ => none
  | .mul, a, b => some (resultMul a b)
  | .mulraw, a, b => some (resultMulraw a b)
  | .red, a, b => some (resultRed a b)

/-- NOP: issue (R102). -/
def execNop (s : State) : Host.Outcome State Fault Refusal := .next (s.onBlock (issueLegal .nop))

/-- MUL: issue (R103). -/
def execMul (s : State) : Host.Outcome State Fault Refusal := .next (s.onBlock (issueLegal .mul))

/-- MULRAW: issue (R105). -/
def execMulraw (s : State) : Host.Outcome State Fault Refusal := .next (s.onBlock (issueLegal .mulraw))

/-- RED: issue (R106). -/
def execRed (s : State) : Host.Outcome State Fault Refusal := .next (s.onBlock (issueLegal .red))

/-- NOP: completion without a result (R102). -/
def completeNop (b : Block) : Block := finish none b

/-- MUL: completion (R103). -/
def completeMul (b : Block) : Block := finish (some (resultMul b.la.toNat b.lb.toNat)) b

/-- MULRAW: completion (R105). -/
def completeMulraw (b : Block) : Block := finish (some (resultMulraw b.la.toNat b.lb.toNat)) b

/-- RED: completion (R106). -/
def completeRed (b : Block) : Block := finish (some (resultRed b.la.toNat b.lb.toNat)) b

/-- `Complete` (40_arith_commands.md R108, R109), enabled exactly when BUSY = 1. It reads only the latches
(10_state.md R32). -/
def complete (b : Block) : Block :=
  if b.busy then
    match b.opif with
    | .nop => completeNop b
    | .mul => completeMul b
    | .mulraw => completeMulraw b
    | .red => completeRed b
  else b

/-- One clock of the reference datapath (41_reference_datapath.md R130): one loop iteration, and in FIN the
completion step. -/
def clock (b : Block) : Block :=
  match b.dp.phase with
  | .idle => b
  | .mult => { b with dp := multClock b.opif b.la b.lb b.dp }
  | .redc => { b with dp := redcClock b.dp }
  | .fin => complete b

end Sys2Proof.Machine
end

