-- ==== Sys2Proof/Machine/Dispatch.lean ====
section
/-! DEFINITION. One arm per command: what the CMD write of its word does (30_encoding.md R74, 60_exceptions.md R162). -/

namespace Sys2Proof.Machine

def exec (i : Instr) (s : State) : Host.Outcome State Fault Refusal :=
  match i with
  | .nop => Sys2Proof.Machine.execNop s
  | .mul => Sys2Proof.Machine.execMul s
  | .mulraw => Sys2Proof.Machine.execMulraw s
  | .red => Sys2Proof.Machine.execRed s

end Sys2Proof.Machine
end

