-- ==== Sys2Proof/Machine/Bus.lean ====
section
/-! DEFINITION. Bus transactions (20_memory.md R50 to R57): each one is one atomic step (R52). -/

namespace Sys2Proof.Machine

/-- `IssueCommand(v)` (60_exceptions.md R162): decode first, so an illegal word is rejected with code 1 whether or
not the block is busy (R163, R165); a legal word runs its command. -/
def issue (v : Word) (s : State) : Host.Outcome State Fault Refusal :=
  match decode v with
  | .ok i => exec i s
  | .error _ => .next (s.onBlock (reject .illegalCmd))

/-- The effect of a legal write (20_memory.md R54). ID and RES are read-only: the write is ignored (R57). -/
def writeReg (r : Reg) (v : Word) (s : State) : Host.Outcome State Fault Refusal :=
  match r with
  | .id => .next s
  | .ctrl => .next (s.onBlock (writeCtrl v))
  | .cmd => issue v s
  | .status => .next (s.onBlock (writeStatus v))
  | .opa i => .next (s.onBlock fun b => { b with opa := b.opa.set i v })
  | .opb i => .next (s.onBlock fun b => { b with opb := b.opb.set i v })
  | .res _ => .next s

/-- One transaction with its response (20_memory.md R53, R54). An illegal access has no effect (R55, R56, R171). -/
def transact (t : Txn) (s : State) : Host.Outcome State Fault Refusal :=
  match target t with
  | none => .next (s.respond .busErr)
  | some r =>
    if t.we then mapNext (State.respond .ok) (writeReg r t.wdata s)
    else .next (s.respond (.data (readReg s.blk r)))

/-- `BusRead(off)` as a transaction of full width. -/
def readTxn (off : BitVec 8) : Txn := { we := false, addr := off, be := 0b1111, wdata := 0 }

/-- `BusWrite(off, v)` as a transaction of full width. -/
def writeTxn (off : BitVec 8) (v : Word) : Txn := { we := true, addr := off, be := 0b1111, wdata := v }

/-- The port ack: a pulse with the transaction that this step performed (20_memory.md R50). -/
def State.ack (s : State) : Bool := s.resp.isSome

/-- The port err: 1 with the ack of a BUSERR, 0 with any other ack (20_memory.md R50). DESIGN CHOICE, unsafe: it is 0
while ack = 0, where the spec gives it no value (log 6). -/
def State.errPort (s : State) : Bool := s.resp == some .busErr

/-- The port rdata, valid with ack: a read's data, 0 with BUSERR (20_memory.md R50, R55). The spec gives it no value
on a write's OK (log 6). -/
def State.rdata (s : State) : Option Word :=
  match s.resp with
  | some (.data w) => some w
  | some .busErr => some 0
  | some .ok => none
  | none => none

end Sys2Proof.Machine
end

