-- ==== Sys2Proof/Machine/Master.lean ====
section
/-! DEFINITION. The bus master's side: host statements and the expansions of the pseudo-instructions
(30_encoding.md R78, R79). -/

namespace Sys2Proof.Machine

/-- The value of a host variable, if the program has set it. -/
def lookupVar (x : Var) : List (Var × Int) → Option Int
  | [] => none
  | (y, v) :: rest => if y = x then some v else lookupVar x rest

/-- Sets a host variable; each variable stands in the list once. -/
def setVar (x : Var) (v : Int) : List (Var × Int) → List (Var × Int)
  | [] => [(x, v)]
  | (y, w) :: rest => if y = x then (x, v) :: rest else (y, w) :: setVar x v rest

/-- Exact host arithmetic, and `mod p` where it is written (30_encoding.md R78); none where a variable was never set
(log 9). DESIGN CHOICE, unsafe: a slice `e[hi:lo]` with hi < lo, where 00_scope.md R13 describes no bits, is 0
(log 17). -/
def evalExpr (vars : List (Var × Int)) : Expr → Option Int
  | .lit n => some n
  | .var x => lookupVar x vars
  | .add e f =>
    match evalExpr vars e, evalExpr vars f with
    | some a, some b => some (a + b)
    | _, _ => none
  | .sub e f =>
    match evalExpr vars e, evalExpr vars f with
    | some a, some b => some (a - b)
    | _, _ => none
  | .mul e f =>
    match evalExpr vars e, evalExpr vars f with
    | some a, some b => some (a * b)
    | _, _ => none
  | .modP e =>
    match evalExpr vars e with
    | some a => some (a % (Config.p : Int))
    | none => none
  | .slice e hi lo =>
    match evalExpr vars e with
    | some a => some ((a / (2 : Int) ^ lo) % (2 : Int) ^ (hi + 1 - lo))
    | none => none

/-- The host program stops with an error (30_encoding.md R78). -/
def State.stopHost (r : HostStop) (s : State) : State := { s with master := { s.master with stop := some r } }

/-- The host sets a variable. -/
def State.setHostVar (x : Var) (v : Int) (s : State) : State :=
  { s with master := { s.master with vars := setVar x v s.master.vars } }

/-- The host puts a statement in front of its program. -/
def State.pushStmt (st : Stmt) (s : State) : State :=
  { s with master := { s.master with program := st :: s.master.program } }

/-- The transaction encoding of a statement, the triple (direction, offset, data) of 30_encoding.md R78, given the
variables; none for a statement of the host alone. -/
def stmtTxn (vars : List (Var × Int)) : Stmt → Option Txn
  | .access t => some t
  | .wr off e => (evalExpr vars e).map fun v => writeTxn off (BitVec.ofInt 32 v)
  | .rd off _ => some (readTxn off)
  | .poll off _ _ => some (readTxn off)
  | .check _ _ => none
  | .assign _ _ => none
  | .cmd i => some (writeTxn 0x008 (encode i))

/-- What the host does with the response of a statement's transaction (30_encoding.md R78). The statement is already
taken off the program; a POLL whose condition does not hold is put back. DESIGN CHOICE: the `t` of R78's POLL is no
variable of the program, so a POLL compares the datum and sets nothing (log 9). -/
def afterResponse (st : Stmt) (s : State) : State :=
  match st, s.resp with
  | .access _, _ => s
  | _, some .busErr => s.stopHost .busErr
  | .rd _ x, some (.data w) => s.setHostVar x w.toNat
  | .poll off mask v, some (.data w) => if w &&& mask = v then s else s.pushStmt (.poll off mask v)
  | _, _ => s

/-- A statement of the host alone: CHECK and the host's own arithmetic (30_encoding.md R78). A statement that reads
a variable never set stops the program (log 9). -/
def hostOnly (st : Stmt) (s : State) : State :=
  match st with
  | .check x v =>
    match evalExpr s.master.vars x, evalExpr s.master.vars v with
    | some a, some b => if a = b then s.quiet else s.quiet.stopHost .checkFailed
    | _, _ => s.quiet.stopHost .unbound
  | .assign x e =>
    match evalExpr s.master.vars e with
    | some a => s.quiet.setHostVar x a
    | none => s.quiet.stopHost .unbound
  | _ => s.quiet.stopHost .unbound

/-- Performs one statement: its transaction if it has one. -/
def runStmt (st : Stmt) (s : State) : Host.Outcome State Fault Refusal :=
  match stmtTxn s.master.vars st with
  | some t => mapNext (afterResponse st) (transact t s)
  | none => .next (hostOnly st s)

/-- The host's turn: its next statement. A host that has no statement left, or has stopped, does nothing. -/
def hostStep (s : State) : Host.Outcome State Fault Refusal :=
  match s.master.stop, s.master.program with
  | none, st :: rest => runStmt st { s with master := { s.master with program := rest } }
  | _, _ => .next s.quiet

/-- `v.w[i]` as host arithmetic (30_encoding.md R79). -/
def wordExpr (v : Expr) (i : Nat) : Expr := .slice v (32 * i + 31) (32 * i)

/-- The writes of `LDA` and `LDB`: eight words from a base offset, i increasing (30_encoding.md R79). -/
def loadWords (base : Nat) (v : Expr) : List Stmt :=
  (List.range 8).map fun i => .wr (BitVec.ofNat 8 (base + 4 * i)) (wordExpr v i)

/-- The sum of `r.w[j] * 2^(32 j)` for j below n (30_encoding.md R79). -/
def gatherExpr (r : Nat) : Nat → Expr
  | 0 => .lit 0
  | n + 1 => .add (gatherExpr r n) (.mul (.var (.word r n)) (.lit (2 ^ (32 * n))))

/-- The reads of `RDR8` and `RDR16`, and the host's sum of them (30_encoding.md R79). -/
def readResult (n r : Nat) : List Stmt :=
  ((List.range n).map fun j => .rd (BitVec.ofNat 8 (0x0C0 + 4 * j)) (.word r j)) ++
    [.assign (.name r) (gatherExpr r n)]

/-- `WAIT`: poll until BUSY = 0 (30_encoding.md R79). -/
def waitStmt : Stmt := .poll 0x00C 0x00000001 0x00000000

/-- `MUL; WAIT; RD 0x00C -> s; CHECK s, 0x00000002` and its like: a command, its completion, its check
(30_encoding.md R79, 70_reset_and_hazards.md R185). -/
def issueAndCheck (i : Instr) : List Stmt :=
  [.cmd i, waitStmt, .rd 0x00C .status, .check (.var .status) (.lit 0x00000002)]

/-- The exact expansions of 30_encoding.md R79. -/
def expand : Pseudo → List Stmt
  | .lda v => loadWords 0x040 v
  | .ldb v => loadWords 0x080 v
  | .wait => [waitStmt]
  | .waitDone => [.poll 0x00C 0x00000002 0x00000002]
  | .rdr8 r => readResult 8 r
  | .rdr16 r => readResult 16 r
  | .ack => [.wr 0x00C (.lit 0x00000006)]
  | .srst => [.wr 0x004 (.lit 0x00000002)]
  | .ien => [.wr 0x004 (.lit 0x00000001)]
  | .fmul a b r => loadWords 0x040 a ++ loadWords 0x080 b ++ issueAndCheck .mul ++ readResult 8 r
  | .fsqr a r => loadWords 0x040 a ++ loadWords 0x080 a ++ issueAndCheck .mul ++ readResult 8 r
  | .fmulraw a b r => loadWords 0x040 a ++ loadWords 0x080 b ++ issueAndCheck .mulraw ++ readResult 16 r
  | .fred x r =>
    loadWords 0x040 (.slice x 255 0) ++ loadWords 0x080 (.slice x 511 256) ++ issueAndCheck .red ++ readResult 8 r

end Sys2Proof.Machine
end

