-- ==== Sys2Proof/Machine/Turns.lean ====
section
/-! DEFINITION. The agents' turns: completion, datapath clock, host, hard reset (20_memory.md R52;
40_arith_commands.md R108; 70_reset_and_hazards.md R180). -/

namespace Sys2Proof.Machine

/-- The completion step as a step of the machine. When BUSY = 0 it is not enabled and the block stays as it is. -/
def completeStep (s : State) : State := (s.onBlock complete).quiet

/-- One clock of the reference datapath as a step of the machine. -/
def clockStep (s : State) : State := (s.onBlock clock).quiet

/-- The hard reset: every state element of the block takes its reset value, at any time, and no transaction is
acknowledged (70_reset_and_hazards.md R180). The host and the order of turns are outside the block and stay. -/
def hardResetStep (s : State) : State := (s.onBlock fun _ => Block.reset).quiet

/-- One agent's turn. -/
def runTurn (t : Turn) (s : State) : Host.Outcome State Fault Refusal :=
  match t with
  | .host => hostStep s
  | .complete => .next (completeStep s)
  | .clock => .next (clockStep s)
  | .hardReset => .next (hardResetStep s)

/-- The turn that is taken when no order is planned: an owed completion first, so that every accepted command
completes (the fairness of 40_arith_commands.md R108), else the host's (log 2). -/
def defaultTurn (s : State) : Turn := if s.blk.busy then .complete else .host

/-- Takes the next planned turn, or the default one. -/
def takeTurn (s : State) : Host.Outcome State Fault Refusal :=
  match s.turns with
  | [] => runTurn (defaultTurn s) s
  | t :: ts => runTurn t { s with turns := ts }

end Sys2Proof.Machine
end

