-- ==== Sys2Proof/Machine/Step.lean ====
section
/-! DEFINITION. One step of the machine, and how a command word is placed so that the next step runs it. -/

namespace Sys2Proof.Machine

/-- One atomic step: one agent's turn (20_memory.md R52). -/
def step (s : State) : Host.Outcome State Fault Refusal := takeTurn s

/-- `s` with the CMD write of a command word as the host's next transaction, and the host's turn next. The block
fetches nothing (10_state.md R29): a command runs when the host writes its word to CMD (30_encoding.md R72, log 7). -/
def State.withFetchWord (s : State) (nbits w : Nat) : State :=
  { s with
    master := { s.master with
      program := .access (writeTxn 0x008 (BitVec.ofNat 32 (w % 2 ^ nbits))) :: s.master.program
      stop := none }
    turns := .host :: s.turns }

end Sys2Proof.Machine
end

