-- ==== Sys2Proof/Machine/Platform.lean ====
section
/-! DEFINITION. Several blocks on one platform: the parameters BASE and N_INST (00_scope.md R11, R12;
60_exceptions.md R173). -/

namespace Sys2Proof.Machine

/-- A block with its machine around it, placed at BASE = 256 * baseIndex, so BASE is 256-byte aligned (00_scope.md R11). -/
structure Placed where
  baseIndex : Nat
  st        : State
  deriving DecidableEq, Repr

/-- A platform: N_INST is the length of the list (00_scope.md R12). -/
abbrev Platform := List Placed

/-- BASE of a placed block (00_scope.md R11). -/
def baseOf (q : Placed) : Nat := 256 * q.baseIndex

/-- At least one block, each at its own BASE (00_scope.md R12, 60_exceptions.md R173). -/
def platformWf (P : Platform) : Bool := !P.isEmpty && decide (P.map baseOf).Nodup

/-- The window offset of a platform address, `offset = address - BASE`, if the address is in the 256-byte window at
BASE (20_memory.md R50, R51). -/
def offsetIn (base addr : Nat) : Option (BitVec 8) :=
  if base ≤ addr ∧ addr < base + 256 then some (BitVec.ofNat 8 (addr - base)) else none

/-- One step of the k-th block; every other block stays (60_exceptions.md R173). -/
def platformStep : Nat → Platform → Host.Outcome Platform Fault Refusal
  | _, [] => .next []
  | 0, q :: P => mapNext (fun t => { q with st := t } :: P) (step q.st)
  | k + 1, q :: P => mapNext (q :: ·) (platformStep k P)

/-- A bus access at a platform address reaches the block whose window holds the address; an address in no window
reaches no block (20_memory.md R51, R69). -/
def platformAccess (addr : Nat) (we : Bool) (be : BitVec 4) (wdata : Word) :
    Platform → Host.Outcome Platform Fault Refusal
  | [] => .next []
  | q :: P =>
    match offsetIn (baseOf q) addr with
    | some off => mapNext (fun t => { q with st := t } :: P)
        (transact { we := we, addr := off, be := be, wdata := wdata } q.st)
    | none => mapNext (q :: ·) (platformAccess addr we be wdata P)

end Sys2Proof.Machine
end

