-- ==== Sys2Proof/Safety.lean ====
section
/-! DEFINITION. What every reachable state satisfies, and when a run is over. -/

namespace Sys2Proof.Machine

/-- ERR = 0 implies ECODE = 0, BUSY = 1 implies DONE = 0 (10_state.md R27), and ECODE is 0, 1 or 2
(60_exceptions.md R161). -/
def statusInv (b : Block) : Prop :=
  (b.err = false → b.ecode = 0) ∧ (b.err = true → b.ecode = 1 ∨ b.ecode = 2) ∧ (b.busy = true → b.done = false)

/-- LASTCMD always holds a legal word, and while a command is in flight it is that command's word
(10_state.md R26, R33; 40_arith_commands.md R101). -/
def commandInv (b : Block) : Prop :=
  (∃ i, b.lastcmd = encode i) ∧ (b.busy = true → b.lastcmd = encode b.opif)

/-- When nothing is in flight, RES holds the whole result of the last accepted command, if that command writes RES
(40_arith_commands.md R109, R112; 20_memory.md R62). -/
def resultInv (b : Block) : Prop :=
  b.busy = false → ∀ r, result b.opif b.la.toNat b.lb.toNat = some r → b.res = words 16 r

/-- The invariant of the multiply loop after CNT iterations (41_reference_datapath.md R135). -/
def multInv (b : Block) : Prop :=
  (b.opif = .mul ∨ b.opif = .mulraw) ∧ b.dp.cnt.toNat < Config.W ∧
  b.dp.acc.toNat = b.la.toNat * (b.lb.toNat % 2 ^ b.dp.cnt.toNat) ∧
  (b.dp.cnt.toNat ≤ 256 → b.dp.wa.toNat = b.la.toNat * 2 ^ b.dp.cnt.toNat) ∧
  b.dp.wb = (b.lb.setWidth 512).rotateRight b.dp.cnt.toNat

/-- The value that the reduce loop reduces (41_reference_datapath.md R136). -/
def redcValue (b : Block) : Nat :=
  if b.opif = .red then b.lb.toNat * 2 ^ 256 + b.la.toNat else b.la.toNat * b.lb.toNat

/-- The invariant of the reduce loop after CNT iterations (41_reference_datapath.md R136). -/
def redcInv (b : Block) : Prop :=
  (b.opif = .mul ∨ b.opif = .red) ∧ b.dp.cnt.toNat ≤ Config.W ∧
  b.dp.acc.toNat % Config.p = redcValue b % Config.p ∧
  (b.dp.cnt.toNat ≤ 257 → b.dp.acc.toNat < 2 * Config.p * 2 ^ (257 - b.dp.cnt.toNat)) ∧
  (257 < b.dp.cnt.toNat → b.dp.acc.toNat < Config.p) ∧
  b.dp.md = (BitVec.ofNat 512 (Config.p <<< 257)).rotateRight b.dp.cnt.toNat

/-- In FIN the accumulator holds the result of the command in flight (41_reference_datapath.md R130, R138). -/
def finInv (b : Block) : Prop :=
  ∀ r, result b.opif b.la.toNat b.lb.toNat = some r → b.dp.acc.toNat = r

/-- The datapath works exactly while a command is in flight, on that command, and each loop keeps its invariant
(10_state.md R34, 41_reference_datapath.md R130). -/
def datapathInv (b : Block) : Prop :=
  match b.dp.phase with
  | .idle => b.busy = false
  | .mult => b.busy = true ∧ multInv b
  | .redc => b.busy = true ∧ redcInv b
  | .fin => b.busy = true ∧ finInv b

/-- What every reachable block state satisfies. -/
def blockInv (b : Block) : Prop := statusInv b ∧ commandInv b ∧ resultInv b ∧ datapathInv b

/-- What every reachable state of the machine satisfies. -/
def State.Inv (s : State) : Prop := blockInv s.blk

/-- Quiescent: BUSY = 0 (70_reset_and_hazards.md R194). -/
def quiescent (s : State) : Bool := !s.blk.busy

/-- The host has performed its last statement, and the block is quiescent (70_reset_and_hazards.md R194). DESIGN CHOICE,
unsafe: a host program that has stopped with an error has performed its last statement, whatever statements remain; R194
does not say whether such a run has ended (log 20). -/
def runEnded (s : State) : Bool := (s.master.program.isEmpty || s.master.stop.isSome) && quiescent s

end Sys2Proof.Machine
end

