-- ==== Sys2Proof/Certificates/Slice0/Obligations.lean ====
section
/-! DEFINITION. The statements for the provers, drawn from the numbered rules of spec/. -/

namespace Sys2Proof.Claims

open Sys2Proof.Machine

/-- The reset table of 10_state.md R36, less the registers that it leaves unspecified. -/
def atReset (b : Block) : Prop :=
  (∀ i : Fin 8, b.opa[i] = 0) ∧ (∀ i : Fin 8, b.opb[i] = 0) ∧ (∀ j : Fin 16, b.res[j] = 0) ∧
  b.ie = false ∧ b.lastcmd = 0x00000000 ∧ b.busy = false ∧ b.done = false ∧ b.err = false ∧ b.ecode = 0 ∧
  b.la = 0 ∧ b.lb = 0 ∧ b.opif = .nop ∧ b.dp.phase = .idle ∧ irq b = false ∧ readReg b .id = 0x4D4D2501

/-- Everything of the block that the host can read except CMD and STATUS is the same. -/
def sameButCommandAndStatus (b c : Block) : Prop :=
  c.opa = b.opa ∧ c.opb = b.opb ∧ c.res = b.res ∧ c.ie = b.ie

/-- The CMD write of a command, in every state (40_arith_commands.md R101, 60_exceptions.md R162): accepted in an idle
block, latching the operands there and clearing DONE; turned away with ECODE 2 by a busy one. Nothing else changes. -/
def issuesAs (i : Instr) (ph : Phase) : Prop :=
  (∀ s : State, s.blk.busy = false → ∃ t : State, exec i s = .next t ∧
    t.master = s.master ∧ t.turns = s.turns ∧ t.resp = s.resp ∧
    t.blk.la.toNat = val s.blk.opa ∧ t.blk.lb.toNat = val s.blk.opb ∧ t.blk.opif = i ∧
    t.blk.lastcmd = encode i ∧ t.blk.busy = true ∧ t.blk.done = false ∧ t.blk.dp.phase = ph ∧
    t.blk.err = s.blk.err ∧ t.blk.ecode = s.blk.ecode ∧ sameButCommandAndStatus s.blk t.blk) ∧
  (∀ s : State, s.blk.busy = true →
    exec i s = .next { s with blk := { s.blk with err := true, ecode := 2 } })

/-- The completion of command `i`, issued in an idle block, in any later state `u` of the block that still has it in
flight with its latches (so whatever the host wrote to OPA and OPB since): `R a b old new` relates the operands at the
issue, RES before the completion and RES after it. Everything that completion does not write stays (R109). -/
def completesAs (i : Instr) (R : Nat → Nat → Vector Word 16 → Vector Word 16 → Prop) : Prop :=
  ∀ s : State, s.blk.busy = false → ∃ t : State, exec i s = .next t ∧
    ∀ u : Block, u.busy = true → u.opif = t.blk.opif → u.la = t.blk.la → u.lb = t.blk.lb →
      R (val s.blk.opa) (val s.blk.opb) u.res (complete u).res ∧
      complete u = { u with
        res := (complete u).res, busy := false, done := true, dp := { u.dp with phase := .idle } }

/-- RES[0..7] holds `c` and RES[8..15] is 0. -/
def lowHalfIs (c : Nat) (X : Vector Word 16) : Prop :=
  val X = c ∧ (∀ j : Fin 8, X[j.val] = (words 8 c)[j]) ∧ ∀ j : Fin 16, 8 ≤ j.val → X[j] = 0

/-- The accesses that get BUSERR: not aligned, not of full width, or at a reserved offset (20_memory.md R55, R56). -/
def illegalAccess (t : Txn) : Prop :=
  t.addr.toNat % 4 ≠ 0 ∨ t.be ≠ 0b1111 ∨ (0x010 ≤ t.addr.toNat ∧ t.addr.toNat ≤ 0x03F) ∨
  (0x060 ≤ t.addr.toNat ∧ t.addr.toNat ≤ 0x07F) ∨ (0x0A0 ≤ t.addr.toNat ∧ t.addr.toNat ≤ 0x0BF)

/-- `n` clocks of the reference datapath in a row. -/
def clocks (n : Nat) (b : Block) : Block := Nat.iterate clock n b

end Sys2Proof.Claims

open Sys2Proof Sys2Proof.Machine Sys2Proof.Claims

/-! ## Reset -/

/-- R36: after the hard reset and after a soft reset. State.reset, a reset step from any state, and the soft reset. -/
def Obligations.ResetStateHasTheTableValues : Prop :=
  atReset State.reset.blk ∧ (∀ s : State, atReset (hardResetStep s).blk) ∧ (∀ b : Block, atReset (softReset b))

/-- R182: the soft reset through CTRL, whatever the other bits of the datum are. -/
def Obligations.SoftResetThroughCtrl : Prop :=
  ∀ (s : State) (v : Word), v.getLsbD 1 = true → ∃ t : State, transact (writeTxn 0x004 v) s = .next t ∧
    atReset t.blk ∧ t.resp = some .ok ∧ t.master = s.master ∧ t.turns = s.turns

/-- R180: the platform's hard reset is a step that may come at any time. That the host and the other turns stay is the
model's own reading (log 8). -/
def Obligations.HardResetStep : Prop :=
  ∀ (s : State) (ts : List Turn), s.turns = .hardReset :: ts → ∃ t : State, step s = .next t ∧
    atReset t.blk ∧ t.resp = none ∧ t.master = s.master ∧ t.turns = ts

/-- R183: a command in flight at a reset never completes, and reset and completion together give the reset state in
either order. -/
def Obligations.ResetAbandonsTheCommand : Prop :=
  ∀ s : State, s.blk.busy = true →
    (∀ b : Block, b = softReset s.blk ∨ b = (hardResetStep s).blk →
      b.busy = false ∧ b.done = false ∧ (∀ j : Fin 16, b.res[j] = 0) ∧ complete b = b) ∧
    atReset (softReset (complete s.blk)) ∧ atReset (hardResetStep (completeStep s)).blk

/-! ## Encoding and issue -/

/-- The words of R73 and a few illegal words of 95_test_vectors.md 2.5, through the decoder of words, the decoder of
bytes and the decoder of table words. The byte order of the last two is the little-endian order of 20_memory.md R58,
read for a command word as log 16 says; that the decoder tells reserved bits from a reserved OP is the model's own
choice (log 19), the block makes no difference between them. -/
def Obligations.TabledWordsDecode : Prop :=
  decode 0x00000000 = .ok .nop ∧ decode 0x00000001 = .ok .mul ∧ decode 0x00000002 = .ok .mulraw ∧
  decode 0x00000003 = .ok .red ∧ decode 0x00000004 = .error .reservedOp ∧ decode 0x0000000f = .error .reservedOp ∧
  decode 0x00000010 = .error .reservedBits ∧ decode 0x80000001 = .error .reservedBits ∧
  decodeBytes [0x02, 0x00, 0x00, 0x00, 0xAA] = .ok (.mulraw, [0xAA]) ∧
  decodeTableWord 32 3 = some .red ∧ decodeTableWord 32 4 = none

/-- R74: exactly four words are legal, and the issue of a word is the acceptance or the rejection that its decoding and
BUSY select. -/
def Obligations.DecodeIsTotalAndIssueFollows : Prop :=
  ∀ v : Word,
    (∀ i, decode v = .ok i ↔ v = encode i) ∧
    ((∃ e, decode v = .error e) ↔ v ≠ 0x0 ∧ v ≠ 0x1 ∧ v ≠ 0x2 ∧ v ≠ 0x3) ∧
    (∀ (i : Instr) (s : State), decode v = .ok i → s.blk.busy = false →
      issue v s = .next { s with blk := accept i v s.blk }) ∧
    (∀ (i : Instr) (s : State), decode v = .ok i → s.blk.busy = true →
      issue v s = .next { s with blk := reject .cmdWhileBusy s.blk }) ∧
    (∀ (e : DecodeError) (s : State), decode v = .error e →
      issue v s = .next { s with blk := reject .illegalCmd s.blk })

/-- Decoding a stream of bytes gives a command and the rest exactly when the stream is that command's four bytes and
the rest. R77 fixes the length, one 32-bit word. That the word's bytes come as a stream, lane 0 of R58 first, is the
model's own reading (log 16). -/
def Obligations.ByteDecodingIsInverseToEncoding : Prop :=
  ∀ (bs : List Byte) (i : Instr) (rest : List Byte),
    decodeBytes bs = .ok (i, rest) ↔ bs = encodeBytes i ++ rest

/-- R101: a CMD write is accepted exactly when its word decodes and BUSY = 0, and what acceptance writes and leaves. -/
def Obligations.AcceptanceEffects : Prop :=
  ∀ (v : Word) (s : State),
    (∀ i, decode v = .ok i → s.blk.busy = false → ∃ t : State, issue v s = .next t ∧
      t.blk.la.toNat = val s.blk.opa ∧ t.blk.lb.toNat = val s.blk.opb ∧ t.blk.opif = i ∧ t.blk.lastcmd = v ∧
      t.blk.busy = true ∧ t.blk.done = false ∧
      t.blk.dp.phase = (match i with | .mul => .mult | .mulraw => .mult | .red => .redc | .nop => .fin) ∧
      t.blk.err = s.blk.err ∧ t.blk.ecode = s.blk.ecode ∧ sameButCommandAndStatus s.blk t.blk ∧
      t = { s with blk := t.blk }) ∧
    (¬(∃ i, decode v = .ok i ∧ s.blk.busy = false) → ∃ c, issue v s = .next { s with blk := reject c s.blk })

/-- R163, with R165 (1): a word with a bit of 31:4 set or OP 0x4 to 0xF, written to CMD in any state. -/
def Obligations.IllegalCommandIsRejected : Prop :=
  ∀ (v : Word) (s : State), (v >>> 4 ≠ 0 ∨ 4 ≤ v.toNat % 16) →
    transact (writeTxn 0x008 v) s =
      .next { s with blk := { s.blk with err := true, ecode := 1 }, resp := some .ok }

/-- R164: a legal word written to CMD while busy is refused, not queued. -/
def Obligations.BusyCommandIsRejected : Prop :=
  ∀ (v : Word) (s : State), v.toNat < 4 → s.blk.busy = true →
    transact (writeTxn 0x008 v) s =
      .next { s with blk := { s.blk with err := true, ecode := 2 }, resp := some .ok }

/-- R162: when a CMD write is rejected, and that a rejection changes ERR and ECODE alone, lets the command in flight
complete as without it, is answered OK, and is overwritten by the next rejection. -/
def Obligations.RejectionIsPrecise : Prop :=
  (∀ (v : Word) (s : State), ((∃ e, decode v = .error e) ∨ ((∃ i, decode v = .ok i) ∧ s.blk.busy = true)) →
    ∃ c : RejectCode, c = (if 4 ≤ v.toNat then .illegalCmd else .cmdWhileBusy) ∧
      transact (writeTxn 0x008 v) s =
        .next { s with blk := { s.blk with err := true, ecode := ecodeOf c }, resp := some .ok }) ∧
  (∀ (c : RejectCode) (b : Block), b.busy = true →
    complete (reject c b) = { complete b with err := true, ecode := ecodeOf c }) ∧
  (∀ (c d : RejectCode) (b : Block), reject d (reject c b) = reject d b)

/-- A step runs the command whose word the host writes: the step is exec of that command after the host's statement and
the turn are taken off, with the response OK recorded. For the bare transaction, for WR and for the mnemonic, on a
planned turn and on the default one, and for withFetchWord. The model's own choices are the bare access (log 1), that
the host's turn is the default in an idle block (log 2), and withFetchWord (log 7). -/
def Obligations.StepRunsTheWrittenCommand : Prop :=
  (∀ (s : State) (ts : List Turn) (st : Stmt) (rest : List Stmt) (v : Word) (i : Instr),
    decode v = .ok i → s.master.stop = none → s.master.program = st :: rest →
    (st = .access (writeTxn 0x008 v) ∨ st = .wr 0x008 (.lit v.toNat) ∨ st = .cmd i) →
    (s.turns = .host :: ts ∨ (s.turns = [] ∧ ts = [] ∧ s.blk.busy = false)) →
    step s = mapNext (State.respond .ok)
      (exec i { s with turns := ts, master := { s.master with program := rest } })) ∧
  (∀ (s : State) (w : Nat) (i : Instr), decode (BitVec.ofNat 32 w) = .ok i → w < 2 ^ 32 →
    step (s.withFetchWord 32 w) = mapNext (State.respond .ok)
      (exec i { s with master := { s.master with stop := none } }))

/-! ## The commands -/

/-- R102: NOP, with its word, its acceptance, its completion without a RES write and its rejection. -/
def Obligations.NopRuns : Prop :=
  encode .nop = 0x00000000 ∧ decode 0x00000000 = .ok .nop ∧ issuesAs .nop .fin ∧
  completesAs .nop fun _ _ old new => new = old

/-- R103: MUL, with its word, its acceptance, its completion, its rejection and its corner cases. -/
def Obligations.MulRuns : Prop :=
  encode .mul = 0x00000001 ∧ decode 0x00000001 = .ok .mul ∧ issuesAs .mul .mult ∧
  (completesAs .mul fun a b _ new => lowHalfIs ((a * b) % (2 ^ 255 - 19)) new) ∧
  (∀ a b : Nat, a = 0 ∨ b = 0 → resultMul a b = 0) ∧
  (∀ b : Nat, resultMul 1 b = b % Config.p ∧ resultMul Config.p b = 0 ∧
    resultMul (Config.p + 1) b = b % Config.p) ∧
  resultMul (2 ^ 255 - 1) 1 = 18 ∧ resultMul (2 ^ 256 - 1) (2 ^ 256 - 1) = 37 ^ 2 ∧ resultMul 3 5 = 0xF ∧
  (∀ a b : Nat, resultMul a b ≠ Config.p ∧ (resultMul a b = 0 ↔ Config.p ∣ a * b))

/-- R105: MULRAW, with its word, its acceptance, its completion, its rejection and its corner cases. -/
def Obligations.MulrawRuns : Prop :=
  encode .mulraw = 0x00000002 ∧ decode 0x00000002 = .ok .mulraw ∧ issuesAs .mulraw .mult ∧
  (completesAs .mulraw fun a b _ new =>
    val new = a * b ∧ a * b ≤ (2 ^ 256 - 1) ^ 2 ∧ ∀ j : Fin 16, new[j] = BitVec.ofNat 32 (a * b / 2 ^ (32 * j.val))) ∧
  (∀ a b : Nat, a = 0 ∨ b = 0 → resultMulraw a b = 0) ∧
  words 16 (resultMulraw (2 ^ 256 - 1) (2 ^ 256 - 1)) =
    #v[1, 0, 0, 0, 0, 0, 0, 0, 0xFFFFFFFE, 0xFFFFFFFF, 0xFFFFFFFF, 0xFFFFFFFF, 0xFFFFFFFF, 0xFFFFFFFF, 0xFFFFFFFF,
      0xFFFFFFFF] ∧
  (∀ a b : Nat, resultRed (resultMulraw a b % 2 ^ 256) (resultMulraw a b / 2 ^ 256) = resultMul a b) ∧
  resultMulraw 3 5 = 0xF

/-- R106: RED, with its word, its acceptance, its completion, its rejection and its corner cases. -/
def Obligations.RedRuns : Prop :=
  encode .red = 0x00000003 ∧ decode 0x00000003 = .ok .red ∧ issuesAs .red .redc ∧
  (completesAs .red fun a b _ new => lowHalfIs ((b * 2 ^ 256 + a) % (2 ^ 255 - 19)) new) ∧
  (∀ a : Nat, a < Config.p → resultRed a 0 = a) ∧ resultRed Config.p 0 = 0 ∧ resultRed (2 * Config.p) 0 = 0 ∧
  resultRed (Config.p ^ 2 % 2 ^ 256) (Config.p ^ 2 / 2 ^ 256) = 0 ∧ resultRed (2 ^ 255) 0 = 19 ∧
  resultRed 0 1 = 38 ∧ resultRed (2 ^ 256 - 1) 0 = 37 ∧ resultRed (2 ^ 256 - 1) (2 ^ 256 - 1) = 1443

/-- The frame of the CMD write of every command, accepted (R101) or rejected (R162): every byte of the window that is not
of CMD or STATUS reads as before, the rest of the machine stays, and so do the registers that the rules do not name. -/
def Obligations.CommandIssueFrame : Prop :=
  ∀ (i : Instr) (s t : State), exec i s = .next t →
    (∀ off : BitVec 8, ¬(0x008 ≤ off.toNat ∧ off.toNat ≤ 0x00F) → windowByte t.blk off = windowByte s.blk off) ∧
    (s.blk.busy = false → t.blk.err = s.blk.err ∧ t.blk.ecode = s.blk.ecode) ∧
    (s.blk.busy = true → t.blk.done = s.blk.done ∧ t.blk.lastcmd = s.blk.lastcmd ∧ t.blk.la = s.blk.la ∧
      t.blk.lb = s.blk.lb ∧ t.blk.opif = s.blk.opif ∧ t.blk.dp = s.blk.dp) ∧
    t.blk.busy = true ∧ t.master = s.master ∧ t.turns = s.turns ∧ t.resp = s.resp

/-- The frame of the completion step of every command: every byte of the window that is not of STATUS or RES reads as
before, and with NOP in flight every byte of RES too. -/
def Obligations.CompletionFrame : Prop :=
  ∀ b : Block, b.busy = true →
    (∀ off : BitVec 8, ¬(0x00C ≤ off.toNat ∧ off.toNat ≤ 0x00F) → (off.toNat < 0x0C0 ∨ b.opif = .nop) →
      windowByte (complete b) off = windowByte b off) ∧
    (complete b).err = b.err ∧ (complete b).ecode = b.ecode ∧ (complete b).la = b.la ∧ (complete b).lb = b.lb ∧
    (complete b).opif = b.opif

/-- R107 and R109: the completion writes the result of the operation in flight, on the latches, and nothing that the
rule does not name. -/
def Obligations.CompletionEffects : Prop :=
  ∀ b : Block, b.busy = true →
    complete b = { b with
      res := match b.opif with
        | .nop => b.res
        | .mul => words 16 ((b.la.toNat * b.lb.toNat) % (2 ^ 255 - 19))
        | .mulraw => words 16 (b.la.toNat * b.lb.toNat)
        | .red => words 16 ((b.lb.toNat * 2 ^ 256 + b.la.toNat) % (2 ^ 255 - 19))
      busy := false
      done := true
      dp := { b.dp with phase := .idle } } ∧
    b.la.toNat * b.lb.toNat < 2 ^ 512 ∧ (∀ r, result b.opif b.la.toNat b.lb.toNat = some r → val (complete b).res = r)

/-- R108: the completion turn fires exactly when BUSY = 1, and then the step is the completion of the block. That a
completion turn with BUSY = 0 is a step, which changes nothing but the turns and the response port, is the model's choice
(log 2); so is the empty response port (log 6). -/
def Obligations.CompletionEnabledWhenBusy : Prop :=
  ∀ (s : State) (ts : List Turn), s.turns = .complete :: ts →
    (s.blk.busy = true → ∃ t : State, step s = .next t ∧ t.blk = complete s.blk ∧ t.blk.busy = false ∧
      t.blk.done = true ∧ t.master = s.master ∧ t.turns = ts ∧ t.resp = none) ∧
    (s.blk.busy = false → step s = .next { s with turns := ts, resp := none })

/-- R108, bounded liveness (the default order is the model's choice, log 2): from any state with a command in flight, after at
most as many steps as turns are planned, all of them with that command still in flight on its own latches, one step ends
it: by the completion of that same command, or by a reset. -/
def Obligations.CommandInFlightEnds : Prop :=
  ∀ s : State, s.blk.busy = true →
    ∃ (k : Nat) (u t : State), k ≤ s.turns.length ∧ Host.Core.run core k s = .next u ∧ step u = .next t ∧
      (∀ j, j ≤ k → ∃ w : State, Host.Core.run core j s = .next w ∧ w.blk.busy = true ∧
        w.blk.opif = s.blk.opif ∧ w.blk.la = s.blk.la ∧ w.blk.lb = s.blk.lb) ∧
      t.blk.busy = false ∧ (t.blk = complete u.blk ∨ atReset t.blk)

/-- R112: the canonical-output invariant. -/
def Obligations.OutputsAreCanonical : Prop :=
  ∀ b : Block, b.busy = true →
    ((b.opif = .mul ∨ b.opif = .red) →
      valWords ((complete b).res.toList.take 8) < 2 ^ 255 - 19 ∧ ∀ j : Fin 16, 8 ≤ j.val → (complete b).res[j] = 0) ∧
    (b.opif = .mulraw → val (complete b).res = b.la.toNat * b.lb.toNat)

/-- R104, of the result function and at the registers: MULRAW's two result halves, copied to OPA and OPB and reduced by RED, give what MUL gives. -/
def Obligations.MulIsMulrawThenRed : Prop :=
  (∀ a b : Nat, a < 2 ^ 256 → b < 2 ^ 256 →
    resultMul a b = resultRed (resultMulraw a b % 2 ^ 256) (resultMulraw a b >>> 256)) ∧
  ∀ b c : Block, b.busy = false → c.busy = false →
    (∀ i : Fin 8, c.opa[i] = (complete (issueLegal .mulraw b)).res[i.val]) →
    (∀ i : Fin 8, c.opb[i] = (complete (issueLegal .mulraw b)).res[i.val + 8]) →
    (complete (issueLegal .red c)).res = (complete (issueLegal .mul b)).res

/-- The laws of R111 but for the inverse law: commutative, associative, congruent, identity, zero. -/
def Obligations.ProductLaws : Prop :=
  ∀ a b c : Nat, resultMul a b = resultMul b a ∧
    resultMul (resultMul a b) c = resultMul a (resultMul b c) ∧
    resultMul a b = resultMul (a % Config.p) (b % Config.p) ∧ resultMul a 1 = a % Config.p ∧ resultMul a 0 = 0

/-! ## Registers and the bus -/

/-- R55, R56, R171: exactly the illegal accesses, reads and writes, get BUSERR, and they change no state. -/
def Obligations.IllegalAccessHasNoEffect : Prop :=
  ∀ (t : Txn) (s : State),
    (illegalAccess t ↔ target t = none) ∧
    (illegalAccess t → ∃ u : State, transact t s = .next u ∧ u = { s with resp := some .busErr } ∧
      u.ack = true ∧ u.errPort = true ∧ u.rdata = some 0) ∧
    (¬ illegalAccess t → ∀ u : State, transact t s = .next u → u.ack = true ∧ u.errPort = false)

/-- R53: what a read returns, at every offset, and that it changes no state. -/
def Obligations.ReadsReturnTheRegisters : Prop :=
  ∀ (t : Txn) (s : State), t.we = false →
    (illegalAccess t → transact t s = .next { s with resp := some .busErr }) ∧
    (¬ illegalAccess t → ∃ w : Word, transact t s = .next { s with resp := some (.data w) } ∧
      (t.addr.toNat = 0x000 → w = 0x4D4D2501) ∧
      (t.addr.toNat = 0x004 → w.toNat = s.blk.ie.toNat) ∧
      (t.addr.toNat = 0x008 → w = s.blk.lastcmd) ∧
      (t.addr.toNat = 0x00C → w.toNat =
        s.blk.busy.toNat + 2 * s.blk.done.toNat + 4 * s.blk.err.toNat + 16 * s.blk.ecode.toNat) ∧
      (∀ i : Fin 8, t.addr.toNat = 0x040 + 4 * i.val → w = s.blk.opa[i]) ∧
      (∀ i : Fin 8, t.addr.toNat = 0x080 + 4 * i.val → w = s.blk.opb[i]) ∧
      (∀ j : Fin 16, t.addr.toNat = 0x0C0 + 4 * j.val → w = s.blk.res[j]))

/-- R54: what a write does, at every offset. -/
def Obligations.WritesFollowTheMap : Prop :=
  ∀ (t : Txn) (s : State), t.we = true →
    (illegalAccess t → transact t s = .next { s with resp := some .busErr }) ∧
    (¬ illegalAccess t →
      (t.addr.toNat = 0x000 → transact t s = .next { s with resp := some .ok }) ∧
      (t.addr.toNat = 0x004 → t.wdata.getLsbD 1 = true →
        transact t s = .next { s with blk := softReset s.blk, resp := some .ok }) ∧
      (t.addr.toNat = 0x004 → t.wdata.getLsbD 1 = false →
        transact t s = .next { s with blk := { s.blk with ie := t.wdata.getLsbD 0 }, resp := some .ok }) ∧
      (t.addr.toNat = 0x008 → transact t s = mapNext (State.respond .ok) (issue t.wdata s)) ∧
      (t.addr.toNat = 0x00C → transact t s = .next { s with
        blk := { s.blk with
          done := if t.wdata.getLsbD 1 then false else s.blk.done
          err := if t.wdata.getLsbD 2 then false else s.blk.err
          ecode := if t.wdata.getLsbD 2 then 0 else s.blk.ecode }
        resp := some .ok }) ∧
      (∀ i : Fin 8, t.addr.toNat = 0x040 + 4 * i.val →
        transact t s = .next { s with blk := { s.blk with opa := s.blk.opa.set i t.wdata }, resp := some .ok }) ∧
      (∀ i : Fin 8, t.addr.toNat = 0x080 + 4 * i.val →
        transact t s = .next { s with blk := { s.blk with opb := s.blk.opb.set i t.wdata }, resp := some .ok }) ∧
      (∀ j : Fin 16, t.addr.toNat = 0x0C0 + 4 * j.val → transact t s = .next { s with resp := some .ok }))

/-- R57: writes to ID and RES are answered OK and change nothing; the reserved bits of CTRL and STATUS do not matter in
a write and read 0. -/
def Obligations.ReadOnlyAndReservedBits : Prop :=
  (∀ (s : State) (v : Word), transact (writeTxn 0x000 v) s = .next { s with resp := some .ok } ∧
    (∀ j : Fin 16, transact (writeTxn (BitVec.ofNat 8 (0x0C0 + 4 * j.val)) v) s = .next { s with resp := some .ok }) ∧
    transact (writeTxn 0x004 v) s = transact (writeTxn 0x004 (v &&& 0x00000003)) s ∧
    transact (writeTxn 0x00C v) s = transact (writeTxn 0x00C (v &&& 0x00000006)) s) ∧
  (∀ b : Block, readReg b .ctrl &&& 0xFFFFFFFE = 0 ∧ readReg b .status &&& 0xFFFFFF08 = 0)

/-- R21 (and the same of OPB): an operand word is stored whole, reads back and leaves everything else; over every step
only a reset or the transaction of the host's next statement changes an operand, and the transaction changes the one word
it names to its datum; no command, completion or clock changes one. -/
def Obligations.OperandWordsHoldWhatTheHostWrote : Prop :=
  (∀ (s : State) (v : Word) (i : Fin 8),
    let t : State := { s with blk := { s.blk with opa := s.blk.opa.set i v }, resp := some .ok }
    let u : State := { s with blk := { s.blk with opb := s.blk.opb.set i v }, resp := some .ok }
    transact (writeTxn (BitVec.ofNat 8 (0x040 + 4 * i.val)) v) s = .next t ∧
    transact (readTxn (BitVec.ofNat 8 (0x040 + 4 * i.val))) t = .next { t with resp := some (.data v) } ∧
    transact (writeTxn (BitVec.ofNat 8 (0x080 + 4 * i.val)) v) s = .next u ∧
    transact (readTxn (BitVec.ofNat 8 (0x080 + 4 * i.val))) u = .next { u with resp := some (.data v) }) ∧
  (∀ s t : State, step s = .next t →
    (t.blk.opa = s.blk.opa ∧ t.blk.opb = s.blk.opb) ∨ atReset t.blk ∨
    (t.resp = some .ok ∧ ∃ (st : Stmt) (rest : List Stmt) (x : Txn),
      s.master.stop = none ∧ s.master.program = st :: rest ∧ stmtTxn s.master.vars st = some x ∧ x.we = true ∧
      ((∃ i : Fin 8, target x = some (.opa i) ∧ t.blk = { s.blk with opa := s.blk.opa.set i x.wdata }) ∨
       (∃ i : Fin 8, target x = some (.opb i) ∧ t.blk = { s.blk with opb := s.blk.opb.set i x.wdata })))) ∧
  (∀ b : Block, (complete b).opa = b.opa ∧ (complete b).opb = b.opb ∧ (clock b).opa = b.opa ∧ (clock b).opb = b.opb ∧
    ∀ i, (issueLegal i b).opa = b.opa ∧ (issueLegal i b).opb = b.opb)

/-- R23: RES can be read and not written by the host; over every step, RES keeps its value unless a completion of a
command that has a result writes the whole of it or a reset clears it. -/
def Obligations.ResChangesOnlyAtCompletion : Prop :=
  (∀ (s : State) (j : Fin 16) (v : Word),
    transact (writeTxn (BitVec.ofNat 8 (0x0C0 + 4 * j.val)) v) s = .next { s with resp := some .ok } ∧
    transact (readTxn (BitVec.ofNat 8 (0x0C0 + 4 * j.val))) s = .next { s with resp := some (.data s.blk.res[j]) }) ∧
  (∀ s t : State, step s = .next t →
    t.blk.res = s.blk.res ∨ atReset t.blk ∨
    (s.blk.busy = true ∧ t.blk.busy = false ∧ t.blk.done = true ∧
      ∃ r, result s.blk.opif s.blk.la.toNat s.blk.lb.toNat = some r ∧ t.blk.res = words 16 r))

/-- R26: over every step, LASTCMD changes only where a command is accepted, to that command's word, or at a reset. -/
def Obligations.LastcmdIsTheLastAccepted : Prop :=
  ∀ s t : State, step s = .next t →
    t.blk.lastcmd = s.blk.lastcmd ∨ atReset t.blk ∨
    (s.blk.busy = false ∧ t.blk.busy = true ∧ t.blk.lastcmd = encode t.blk.opif)

/-- R32: acceptance latches the operands, no step but a reset changes the latches of a command in flight, and the result
depends on nothing but the latches and the operation. -/
def Obligations.LatchesDecideTheResult : Prop :=
  (∀ (i : Instr) (s t : State), s.blk.busy = false → exec i s = .next t →
    t.blk.la.toNat = val s.blk.opa ∧ t.blk.lb.toNat = val s.blk.opb) ∧
  (∀ s t : State, s.blk.busy = true → step s = .next t →
    (t.blk.la = s.blk.la ∧ t.blk.lb = s.blk.lb ∧ t.blk.opif = s.blk.opif) ∨ atReset t.blk) ∧
  (∀ b c : Block, b.busy = true → c.busy = true → c.opif = b.opif → c.la = b.la → c.lb = b.lb → b.opif ≠ .nop →
    (complete c).res = (complete b).res) ∧
  (∀ (b : Block) (s : State), (softReset b).la = 0 ∧ (softReset b).lb = 0 ∧
    (hardResetStep s).blk.la = 0 ∧ (hardResetStep s).blk.lb = 0)

/-- R25: CTRL. Over every step IE stays, or a reset clears the block, or the host's next statement is a CTRL write
without a soft reset, which sets IE to bit 0 of its datum. -/
def Obligations.CtrlWriteAndRead : Prop :=
  (∀ (s : State) (v : Word),
    (v.getLsbD 1 = true → ∃ t : State, transact (writeTxn 0x004 v) s = .next t ∧ t.resp = some .ok ∧
      atReset t.blk ∧ readReg t.blk .ctrl = 0) ∧
    (v.getLsbD 1 = false → ∃ t : State, transact (writeTxn 0x004 v) s = .next t ∧ t.resp = some .ok ∧
      t.blk = { s.blk with ie := v.getLsbD 0 } ∧ readReg t.blk .ctrl = v &&& 1)) ∧
  (∀ s t : State, step s = .next t →
    t.blk.ie = s.blk.ie ∨ atReset t.blk ∨
    (t.resp = some .ok ∧ ∃ (st : Stmt) (rest : List Stmt) (x : Txn),
      s.master.stop = none ∧ s.master.program = st :: rest ∧ stmtTxn s.master.vars st = some x ∧ x.we = true ∧
      target x = some .ctrl ∧ x.wdata.getLsbD 1 = false ∧ t.blk = { s.blk with ie := x.wdata.getLsbD 0 }))

/-- The STATUS write of R27: write one to clear, in one step; BUSY and the reserved bits ignore it. -/
def Obligations.StatusWriteClears : Prop :=
  ∀ (s : State) (v : Word), ∃ t : State, transact (writeTxn 0x00C v) s = .next t ∧ t.resp = some .ok ∧
    t.blk = { s.blk with done := t.blk.done, err := t.blk.err, ecode := t.blk.ecode } ∧
    (v.getLsbD 1 = true → t.blk.done = false) ∧ (v.getLsbD 1 = false → t.blk.done = s.blk.done) ∧
    (v.getLsbD 2 = true → t.blk.err = false ∧ t.blk.ecode = 0) ∧
    (v.getLsbD 2 = false → t.blk.err = s.blk.err ∧ t.blk.ecode = s.blk.ecode)

/-- R28 and R191: the interrupt line over completion, rejection, acknowledgement, acceptance and masking. -/
def Obligations.IrqFollowsItsSources : Prop :=
  ∀ b : Block, irq b = (b.ie && (b.done || b.err)) ∧
    (b.busy = true → b.ie = true → irq (complete b) = true) ∧
    (∀ c, b.ie = true → irq (reject c b) = true) ∧
    (∀ v, irq (writeStatus v b) =
      (b.ie && ((b.done && !v.getLsbD 1) || (b.err && !v.getLsbD 2)))) ∧
    (∀ op, b.busy = false → irq (issueLegal op b) = (b.ie && b.err)) ∧
    irq (writeCtrl 0x00000000 b) = false

/-- R58: byte lanes, and the little-endian words and bytes of every multi-word value of the window, OPA, OPB and RES. -/
def Obligations.ByteOrderIsLittleEndian : Prop :=
  (∀ (w : Word) (k : Fin 4), (laneByte w k).toNat = slice w.toNat (8 * k.val + 7) (8 * k.val)) ∧
  (∀ (b : Block) (i : Fin 8), (b.opa[i]).toNat = slice (val b.opa) (32 * i.val + 31) (32 * i.val) ∧
    regOf (BitVec.ofNat 8 (0x040 + 4 * i.val)) = some (.opa i) ∧
    (b.opb[i]).toNat = slice (val b.opb) (32 * i.val + 31) (32 * i.val) ∧
    regOf (BitVec.ofNat 8 (0x080 + 4 * i.val)) = some (.opb i)) ∧
  (∀ (b : Block) (j : Fin 16), (b.res[j]).toNat = slice (val b.res) (32 * j.val + 31) (32 * j.val) ∧
    regOf (BitVec.ofNat 8 (0x0C0 + 4 * j.val)) = some (.res j)) ∧
  (∀ (b : Block) (k : Fin 32),
    windowByte b (BitVec.ofNat 8 (0x040 + k.val)) = some (BitVec.ofNat 8 (val b.opa / 2 ^ (8 * k.val))) ∧
    windowByte b (BitVec.ofNat 8 (0x080 + k.val)) = some (BitVec.ofNat 8 (val b.opb / 2 ^ (8 * k.val)))) ∧
  (∀ (b : Block) (k : Fin 64),
    windowByte b (BitVec.ofNat 8 (0x0C0 + k.val)) = some (BitVec.ofNat 8 (val b.res / 2 ^ (8 * k.val))))

/-- R61: idempotent and non-idempotent accesses. `twice t s` performs `t` two times. -/
def Obligations.IdempotencyOfAccesses : Prop :=
  let twice (t : Txn) (s : State) := match transact t s with
    | .next u => transact t u
    | o => o
  (∀ (t : Txn) (s : State), t.we = false → twice t s = transact t s ∧
    ∀ u, transact t s = .next u → u.blk = s.blk) ∧
  (∀ (s : State) (v : Word) (i : Fin 8),
    twice (writeTxn (BitVec.ofNat 8 (0x040 + 4 * i.val)) v) s = transact (writeTxn (BitVec.ofNat 8 (0x040 + 4 * i.val)) v) s ∧
    twice (writeTxn (BitVec.ofNat 8 (0x080 + 4 * i.val)) v) s = transact (writeTxn (BitVec.ofNat 8 (0x080 + 4 * i.val)) v) s) ∧
  (∀ (s : State) (v : Word), twice (writeTxn 0x00C v) s = transact (writeTxn 0x00C v) s) ∧
  (∀ (s : State) (v : Word), v.getLsbD 1 = true → ∃ t u : State, transact (writeTxn 0x004 v) s = .next t ∧
    twice (writeTxn 0x004 v) s = .next u ∧ atReset t.blk ∧ atReset u.blk) ∧
  (∀ (s : State) (i : Instr), s.blk.busy = false → ∃ t u : State, transact (writeTxn 0x008 (encode i)) s = .next t ∧
    twice (writeTxn 0x008 (encode i)) s = .next u ∧ u.blk.err = true ∧ t.blk.err = s.blk.err ∧ u.blk.ecode = 2)

/-! ## Every step -/

/-- No state stops the machine, whoever's turn it is, and no command or transaction is ever without an answer. Of the
block this is R160 (60_exceptions.md section 1). The rest is the model's: a completion turn that is not enabled goes on
(log 2), so does the turn of a host that has stopped or has no statement left (log 9), and Fault is empty (log 11). -/
def Obligations.EveryStepGoesOn : Prop :=
  (∀ s : State, ∃ t : State, step s = .next t) ∧ (∀ (i : Instr) (s : State), ∃ t : State, exec i s = .next t) ∧
  (∀ (t : Txn) (s : State), ∃ u : State, transact t s = .next u ∧ u.ack = true)

/-- The invariant of Safety.lean holds after reset. -/
def Obligations.InvariantHoldsAtReset : Prop := State.reset.Inv

/-- Every step keeps the invariant of Safety.lean: STATUS (R27, R161), LASTCMD (R26), RES after a completion (R109,
R112) and the datapath's loops (R135, R136, R138). -/
def Obligations.InvariantIsKeptByEveryStep : Prop :=
  ∀ s t : State, s.Inv → step s = .next t → t.Inv

/-- R27's two invariants, R161's codes, and that BUSY = 1 exactly when PHASE is not IDLE (R34, R101, R109), said of
states that satisfy the invariant. -/
def Obligations.StatusInvariants : Prop :=
  ∀ s t : State, s.Inv → step s = .next t →
    (t.blk.err = false → t.blk.ecode = 0) ∧ (t.blk.busy = true → t.blk.done = false) ∧ t.blk.ecode.toNat ≤ 2 ∧
    (t.blk.busy = true ↔ t.blk.dp.phase ≠ .idle)

/-! ## The reference datapath -/

/-- R131: the comparison by words, its deciding word, and that it is the unsigned order. -/
def Obligations.WordwiseCompareIsTheOrder : Prop :=
  ∀ x y : Wide,
    (wideGe x y = true ↔ y.toNat ≤ x.toNat) ∧
    (∀ k : Fin 16, (words 16 x.toNat)[k] ≠ (words 16 y.toNat)[k] →
      (∀ m : Fin 16, k < m → (words 16 x.toNat)[m] = (words 16 y.toNat)[m]) →
      (wideGe x y = true ↔ (words 16 y.toNat)[k].toNat < (words 16 x.toNat)[k].toNat)) ∧
    ((∀ k : Fin 16, (words 16 x.toNat)[k] = (words 16 y.toNat)[k]) → wideGe x y = true)

/-- R132, R133: the carry chain adds modulo 2^W and the borrow chain subtracts; without a last borrow where x ≥ y. -/
def Obligations.WordwiseAddAndSubtract : Prop :=
  ∀ x y : Wide, (wideAdd x y).toNat = (x.toNat + y.toNat) % 2 ^ 512 ∧ wideSub x y = x - y ∧
    (y.toNat ≤ x.toNat → (wideSub x y).toNat = x.toNat - y.toNat)

/-- R15, R134: the two rotations move every bit by one place and the end bit around. -/
def Obligations.RotationsAreCircular : Prop :=
  ∀ (x : Wide) (i : Nat), i < 512 →
    (rotl1 x).getLsbD i = x.getLsbD ((i + 511) % 512) ∧ (rotr1 x).getLsbD i = x.getLsbD ((i + 1) % 512)

/-- R130, R138 at W = 512, R192's command latencies: from the acceptance of any command, the reference datapath stays
busy for exactly its reference latency; at the last clock it is in FIN with the result in ACC; that clock completes. -/
def Obligations.ReferenceDatapathComputesTheResult : Prop :=
  ∀ (i : Instr) (b : Block), b.busy = false →
    let c := issueLegal i b
    (∀ k, k < referenceLatency i → (clocks k c).busy = true ∧ (clocks k c).res = b.res) ∧
    (clocks (referenceLatency i - 1) c).dp.phase = .fin ∧
    (∀ r, result i (val b.opa) (val b.opb) = some r → (clocks (referenceLatency i - 1) c).dp.acc.toNat = r) ∧
    (clocks (referenceLatency i) c).busy = false ∧ (clocks (referenceLatency i) c).done = true ∧
    (clocks (referenceLatency i) c).res = (complete c).res

/-- R130: one clock of the reference datapath. Outside FIN it changes the datapath registers alone; in FIN it is the
completion; and a planned clock turn does to the block one clock and leaves the host and the other turns. That a clock is
a turn of its own is the model's choice (log 4), and so is the empty response port (log 6). -/
def Obligations.ReferenceClockFrame : Prop :=
  (∀ b : Block, (b.dp.phase ≠ .fin → clock b = { b with dp := (clock b).dp }) ∧
    (b.dp.phase = .fin → clock b = complete b) ∧ (b.dp.phase = .idle → clock b = b)) ∧
  (∀ (s : State) (ts : List Turn), s.turns = .clock :: ts → ∃ t : State, step s = .next t ∧
    t.blk = clock s.blk ∧ t.master = s.master ∧ t.turns = ts ∧ t.resp = none)

/-! ## The host and the platform -/

/-- What each host statement does in the host's turn: the transaction, the comparison, the stop of R78. The model's own
are: one host turn for each read of a POLL, each CHECK and each assignment, and that POLL sets no variable (log 9); the
empty response port after a statement without a transaction (log 6); the bare access (log 1). -/
def Obligations.HostStatements : Prop :=
  ∀ (s : State) (ts : List Turn) (st : Stmt) (rest : List Stmt),
    s.turns = .host :: ts → s.master.stop = none → s.master.program = st :: rest →
    let s0 : State := { s with turns := ts, master := { s.master with program := rest } }
    (∀ off n, st = .wr off (.lit n) → n < 2 ^ 32 → ∀ u, transact (writeTxn off (BitVec.ofNat 32 n)) s0 = .next u →
      (u.resp = some .busErr → step s = .next (u.stopHost .busErr)) ∧ (u.resp ≠ some .busErr → step s = .next u)) ∧
    (∀ off x u, st = .rd off x → transact (readTxn off) s0 = .next u →
      (u.resp = some .busErr → step s = .next (u.stopHost .busErr)) ∧
      (∀ w, u.resp = some (.data w) → step s = .next (u.setHostVar x w.toNat))) ∧
    (∀ off mask v u, st = .poll off mask v → transact (readTxn off) s0 = .next u →
      (u.resp = some .busErr → step s = .next (u.stopHost .busErr)) ∧
      (∀ w, u.resp = some (.data w) → w &&& mask = v → step s = .next u) ∧
      (∀ w, u.resp = some (.data w) → w &&& mask ≠ v → step s = .next (u.pushStmt st))) ∧
    (∀ x y a b, st = .check x y → evalExpr s.master.vars x = some a → evalExpr s.master.vars y = some b →
      (a = b → step s = .next s0.quiet) ∧ (a ≠ b → step s = .next (s0.quiet.stopHost .checkFailed))) ∧
    (∀ x e a, st = .assign x e → evalExpr s.master.vars e = some a → step s = .next (s0.quiet.setHostVar x a)) ∧
    (∀ t, st = .access t → step s = transact t s0) ∧
    (∀ i, st = .cmd i → step s = transact (writeTxn 0x008 (encode i)) s0)

/-- R79's LDA and LDB, of a literal or of a value that the host computes (FRED's slices): eight host turns load a
256-bit value and change nothing else of the block, whether or not a command is in flight (R188). The eight turns are
planned ones, or in an idle block the default ones; that the host's turn is the default there is the model's choice
(log 2). -/
def Obligations.LoadPseudoInstructions : Prop :=
  ∀ (s : State) (ts : List Turn) (e : Expr) (v : Nat) (rest : List Stmt),
    v < 2 ^ 256 → evalExpr s.master.vars e = some (v : Int) → s.master.stop = none →
    (s.turns = List.replicate 8 .host ++ ts ∨ (s.turns = [] ∧ ts = [] ∧ s.blk.busy = false)) →
    (s.master.program = expand (.lda e) ++ rest → ∃ t : State, Host.Core.run core 8 s = .next t ∧
      t.blk = { s.blk with opa := words 8 v } ∧ t.master = { s.master with program := rest } ∧ t.turns = ts) ∧
    (s.master.program = expand (.ldb e) ++ rest → ∃ t : State, Host.Core.run core 8 s = .next t ∧
      t.blk = { s.blk with opb := words 8 v } ∧ t.master = { s.master with program := rest } ∧ t.turns = ts)

/-- R173, R11, R12: a step of one block is that block's own and leaves every other block. On every platform an access
leaves every block whose window does not hold the address and moves no block. On a well-formed platform an access at an address in a block's window is that block's transaction at offset addr - BASE and leaves every other block.
That an access at an address in no window changes nothing is the model's choice (log 13). -/
def Obligations.BlocksShareNoState : Prop :=
  (∀ (k : Nat) (P Q : Platform), platformStep k P = .next Q →
    Q.length = P.length ∧ (∀ j, j ≠ k → Q[j]? = P[j]?) ∧
    (∀ q, P[k]? = some q → ∃ t, step q.st = .next t ∧ Q[k]? = some { q with st := t })) ∧
  (∀ (P Q : Platform) (addr : Nat) (we : Bool) (be : BitVec 4) (wdata : Word),
    platformAccess addr we be wdata P = .next Q →
    Q.length = P.length ∧ ∀ (j : Nat) (q : Placed), P[j]? = some q →
      (addr < baseOf q ∨ baseOf q + 256 ≤ addr → Q[j]? = some q) ∧ (∃ t, Q[j]? = some { q with st := t })) ∧
  (∀ (P : Platform) (addr : Nat) (we : Bool) (be : BitVec 4) (wdata : Word), platformWf P = true →
    (∀ (k : Nat) (q : Placed), P[k]? = some q → baseOf q ≤ addr → addr < baseOf q + 256 →
      ∃ (Q : Platform) (t : State), platformAccess addr we be wdata P = .next Q ∧
        transact { we := we, addr := BitVec.ofNat 8 (addr - baseOf q), be := be, wdata := wdata } q.st = .next t ∧
        Q[k]? = some { q with st := t } ∧ Q.length = P.length ∧ ∀ j, j ≠ k → Q[j]? = P[j]?) ∧
    ((∀ q ∈ P, addr < baseOf q ∨ baseOf q + 256 ≤ addr) → platformAccess addr we be wdata P = .next P))
end

