-- ==== Sys2Proof/Laws/Words.lean ====
section
/-! SUPPORT. Multi-word values: `val` and `words` undo each other (00_scope.md R14). -/

namespace Sys2Proof.Machine

theorem valWords_lt (ws : List Word) : valWords ws < 2 ^ (32 * ws.length) := by
  induction ws with
  | nil => simp [valWords]
  | cons w ws ih =>
    have hw : w.toNat < 2 ^ 32 := w.isLt
    have hp : 2 ^ (32 * (w :: ws).length) = 2 ^ 32 * 2 ^ (32 * ws.length) := by
      rw [List.length_cons, Nat.mul_succ, Nat.add_comm, Nat.pow_add]
    rw [hp, valWords]
    have : 2 ^ 32 * (valWords ws + 1) ≤ 2 ^ 32 * 2 ^ (32 * ws.length) := Nat.mul_le_mul_left _ ih
    omega

theorem val_lt {n : Nat} (X : Vector Word n) : val X < 2 ^ (32 * n) := by
  simpa [val] using valWords_lt X.toList

/-- The i-th word of a list's value is the list's i-th word. -/
theorem valWords_word (ws : List Word) (i : Nat) (h : i < ws.length) :
    BitVec.ofNat 32 (valWords ws / 2 ^ (32 * i)) = ws[i] := by
  induction ws generalizing i with
  | nil => simp at h
  | cons w ws ih =>
    have hw : w.toNat < 2 ^ 32 := w.isLt
    cases i with
    | zero =>
      apply BitVec.eq_of_toNat_eq
      simp only [valWords, BitVec.toNat_ofNat, Nat.mul_zero, Nat.pow_zero, Nat.div_one, List.getElem_cons_zero]
      omega
    | succ i =>
      have hd : valWords (w :: ws) / 2 ^ (32 * (i + 1)) = valWords ws / 2 ^ (32 * i) := by
        have hp : 2 ^ (32 * (i + 1)) = 2 ^ 32 * 2 ^ (32 * i) := by
          rw [Nat.mul_succ, Nat.add_comm, Nat.pow_add]
        have hq : (w.toNat + 2 ^ 32 * valWords ws) / 2 ^ 32 = valWords ws := by
          generalize valWords ws = r
          omega
        rw [hp, ← Nat.div_div_eq_div_mul, valWords, hq]
      have hi : i < ws.length := by simpa using h
      rw [hd, ih i hi, List.getElem_cons_succ]

theorem words_getElem (n v i : Nat) (h : i < n) :
    (words n v)[i] = BitVec.ofNat 32 (v / 2 ^ (32 * i)) := by
  apply BitVec.eq_of_toNat_eq
  simp [words, slice, Nat.shiftRight_eq_div_pow, show 32 * i + 31 + 1 - 32 * i = 32 by omega]

/-- `words_n(val(X)) = X`. -/
theorem words_val {n : Nat} (X : Vector Word n) : words n (val X) = X := by
  ext1 i h
  rw [words_getElem, val, valWords_word _ _ (by simpa using h)]
  simp

/-- The value of the words of `v`, by induction on the number of words. -/
theorem valWords_words (n v : Nat) :
    valWords ((List.range n).map fun i => BitVec.ofNat 32 (v / 2 ^ (32 * i))) = v % 2 ^ (32 * n) := by
  induction n generalizing v with
  | zero => simp [valWords, Nat.mod_one]
  | succ n ih =>
    have hp : 2 ^ (32 * (n + 1)) = 2 ^ 32 * 2 ^ (32 * n) := by
      rw [Nat.mul_succ, Nat.add_comm, Nat.pow_add]
    have hs : ∀ i, v / 2 ^ (32 * (i + 1)) = v / 2 ^ 32 / 2 ^ (32 * i) := fun i => by
      rw [Nat.mul_succ, Nat.add_comm, Nat.pow_add, Nat.div_div_eq_div_mul]
    rw [List.range_succ_eq_map, List.map_cons, List.map_map, valWords, hp, Nat.mod_mul, ← ih]
    simp [Function.comp_def, hs]

theorem words_toList (n v : Nat) :
    (words n v).toList = (List.range n).map fun i => BitVec.ofNat 32 (v / 2 ^ (32 * i)) := by
  apply List.ext_getElem
  · simp
  · intro i h1 h2
    have hi : i < n := by simpa using h1
    rw [Vector.getElem_toList, words_getElem n v i hi]
    simp

/-- `val(words_n(v)) = v` for `v` that fits. -/
theorem val_words (n v : Nat) (h : v < 2 ^ (32 * n)) : val (words n v) = v := by
  rw [val, words_toList, valWords_words, Nat.mod_eq_of_lt h]

theorem words_injective (n v w : Nat) (hv : v < 2 ^ (32 * n)) (hw : w < 2 ^ (32 * n))
    (h : words n v = words n w) : v = w := by
  rw [← val_words n v hv, h, val_words n w hw]

theorem operandA_toNat (b : Block) : (operandA b).toNat = val b.opa := by
  rw [operandA, BitVec.toNat_ofNat, Nat.mod_eq_of_lt (val_lt b.opa)]

theorem operandB_toNat (b : Block) : (operandB b).toNat = val b.opb := by
  rw [operandB, BitVec.toNat_ofNat, Nat.mod_eq_of_lt (val_lt b.opb)]

/-- RED's input as a number (30_encoding.md R75). -/
theorem redInput_toNat (la lb : Operand) : (redInput la lb).toNat = lb.toNat * 2 ^ 256 + la.toNat := by
  have := la.isLt
  rw [redInput, BitVec.toNat_append, ← Nat.shiftLeft_add_eq_or_of_lt this, Nat.shiftLeft_eq]

/-- A datapath register is the value of its words. -/
theorem valWords_wideWords (x : Wide) : valWords (wideWords x) = x.toNat := by
  have h := val_words 16 x.toNat
  rw [val] at h
  exact h x.isLt

theorem wideWords_length (x : Wide) : (wideWords x).length = 16 := by
  simp [wideWords]

end Sys2Proof.Machine
end

