-- ==== Sys2Proof/Laws/State.lean ====
section
/-! SUPPORT. One lemma per field per update of the state, the block and the datapath, so that no proof unfolds a
record update. -/

namespace Sys2Proof.Machine

@[simp] theorem State.onBlock_blk (s : State) (f : Block → Block) :
    (State.onBlock f s).blk = f s.blk := rfl
@[simp] theorem State.onBlock_master (s : State) (f : Block → Block) :
    (State.onBlock f s).master = s.master := rfl
@[simp] theorem State.onBlock_turns (s : State) (f : Block → Block) :
    (State.onBlock f s).turns = s.turns := rfl
@[simp] theorem State.onBlock_resp (s : State) (f : Block → Block) :
    (State.onBlock f s).resp = s.resp := rfl

@[simp] theorem State.respond_blk (s : State) (r : Resp) :
    (State.respond r s).blk = s.blk := rfl
@[simp] theorem State.respond_master (s : State) (r : Resp) :
    (State.respond r s).master = s.master := rfl
@[simp] theorem State.respond_turns (s : State) (r : Resp) :
    (State.respond r s).turns = s.turns := rfl
@[simp] theorem State.respond_resp (s : State) (r : Resp) :
    (State.respond r s).resp = some r := rfl

@[simp] theorem State.quiet_blk (s : State) :
    (State.quiet s).blk = s.blk := rfl
@[simp] theorem State.quiet_master (s : State) :
    (State.quiet s).master = s.master := rfl
@[simp] theorem State.quiet_turns (s : State) :
    (State.quiet s).turns = s.turns := rfl
@[simp] theorem State.quiet_resp (s : State) :
    (State.quiet s).resp = none := rfl

@[simp] theorem State.stopHost_blk (s : State) (r : HostStop) :
    (State.stopHost r s).blk = s.blk := rfl
@[simp] theorem State.stopHost_master (s : State) (r : HostStop) :
    (State.stopHost r s).master = { s.master with stop := some r } := rfl
@[simp] theorem State.stopHost_turns (s : State) (r : HostStop) :
    (State.stopHost r s).turns = s.turns := rfl
@[simp] theorem State.stopHost_resp (s : State) (r : HostStop) :
    (State.stopHost r s).resp = s.resp := rfl

@[simp] theorem State.setHostVar_blk (s : State) (x : Var) (v : Int) :
    (State.setHostVar x v s).blk = s.blk := rfl
@[simp] theorem State.setHostVar_master (s : State) (x : Var) (v : Int) :
    (State.setHostVar x v s).master = { s.master with vars := setVar x v s.master.vars } := rfl
@[simp] theorem State.setHostVar_turns (s : State) (x : Var) (v : Int) :
    (State.setHostVar x v s).turns = s.turns := rfl
@[simp] theorem State.setHostVar_resp (s : State) (x : Var) (v : Int) :
    (State.setHostVar x v s).resp = s.resp := rfl

@[simp] theorem State.pushStmt_blk (s : State) (st : Stmt) :
    (State.pushStmt st s).blk = s.blk := rfl
@[simp] theorem State.pushStmt_master (s : State) (st : Stmt) :
    (State.pushStmt st s).master = { s.master with program := st :: s.master.program } := rfl
@[simp] theorem State.pushStmt_turns (s : State) (st : Stmt) :
    (State.pushStmt st s).turns = s.turns := rfl
@[simp] theorem State.pushStmt_resp (s : State) (st : Stmt) :
    (State.pushStmt st s).resp = s.resp := rfl

@[simp] theorem reject_opa (c : RejectCode) (b : Block) :
    (reject c b).opa = b.opa := rfl
@[simp] theorem reject_opb (c : RejectCode) (b : Block) :
    (reject c b).opb = b.opb := rfl
@[simp] theorem reject_res (c : RejectCode) (b : Block) :
    (reject c b).res = b.res := rfl
@[simp] theorem reject_ie (c : RejectCode) (b : Block) :
    (reject c b).ie = b.ie := rfl
@[simp] theorem reject_lastcmd (c : RejectCode) (b : Block) :
    (reject c b).lastcmd = b.lastcmd := rfl
@[simp] theorem reject_busy (c : RejectCode) (b : Block) :
    (reject c b).busy = b.busy := rfl
@[simp] theorem reject_done (c : RejectCode) (b : Block) :
    (reject c b).done = b.done := rfl
@[simp] theorem reject_err (c : RejectCode) (b : Block) :
    (reject c b).err = true := rfl
@[simp] theorem reject_ecode (c : RejectCode) (b : Block) :
    (reject c b).ecode = ecodeOf c := rfl
@[simp] theorem reject_la (c : RejectCode) (b : Block) :
    (reject c b).la = b.la := rfl
@[simp] theorem reject_lb (c : RejectCode) (b : Block) :
    (reject c b).lb = b.lb := rfl
@[simp] theorem reject_opif (c : RejectCode) (b : Block) :
    (reject c b).opif = b.opif := rfl
@[simp] theorem reject_dp (c : RejectCode) (b : Block) :
    (reject c b).dp = b.dp := rfl

@[simp] theorem accept_opa (op : Instr) (v : Word) (b : Block) :
    (accept op v b).opa = b.opa := rfl
@[simp] theorem accept_opb (op : Instr) (v : Word) (b : Block) :
    (accept op v b).opb = b.opb := rfl
@[simp] theorem accept_res (op : Instr) (v : Word) (b : Block) :
    (accept op v b).res = b.res := rfl
@[simp] theorem accept_ie (op : Instr) (v : Word) (b : Block) :
    (accept op v b).ie = b.ie := rfl
@[simp] theorem accept_lastcmd (op : Instr) (v : Word) (b : Block) :
    (accept op v b).lastcmd = v := rfl
@[simp] theorem accept_busy (op : Instr) (v : Word) (b : Block) :
    (accept op v b).busy = true := rfl
@[simp] theorem accept_done (op : Instr) (v : Word) (b : Block) :
    (accept op v b).done = false := rfl
@[simp] theorem accept_err (op : Instr) (v : Word) (b : Block) :
    (accept op v b).err = b.err := rfl
@[simp] theorem accept_ecode (op : Instr) (v : Word) (b : Block) :
    (accept op v b).ecode = b.ecode := rfl
@[simp] theorem accept_la (op : Instr) (v : Word) (b : Block) :
    (accept op v b).la = operandA b := rfl
@[simp] theorem accept_lb (op : Instr) (v : Word) (b : Block) :
    (accept op v b).lb = operandB b := rfl
@[simp] theorem accept_opif (op : Instr) (v : Word) (b : Block) :
    (accept op v b).opif = op := rfl
@[simp] theorem accept_dp (op : Instr) (v : Word) (b : Block) :
    (accept op v b).dp = datapathEnter op (operandA b) (operandB b) b.dp := rfl

@[simp] theorem finish_opa (r : Option Nat) (b : Block) :
    (finish r b).opa = b.opa := rfl
@[simp] theorem finish_opb (r : Option Nat) (b : Block) :
    (finish r b).opb = b.opb := rfl
@[simp] theorem finish_ie (r : Option Nat) (b : Block) :
    (finish r b).ie = b.ie := rfl
@[simp] theorem finish_lastcmd (r : Option Nat) (b : Block) :
    (finish r b).lastcmd = b.lastcmd := rfl
@[simp] theorem finish_busy (r : Option Nat) (b : Block) :
    (finish r b).busy = false := rfl
@[simp] theorem finish_done (r : Option Nat) (b : Block) :
    (finish r b).done = true := rfl
@[simp] theorem finish_err (r : Option Nat) (b : Block) :
    (finish r b).err = b.err := rfl
@[simp] theorem finish_ecode (r : Option Nat) (b : Block) :
    (finish r b).ecode = b.ecode := rfl
@[simp] theorem finish_la (r : Option Nat) (b : Block) :
    (finish r b).la = b.la := rfl
@[simp] theorem finish_lb (r : Option Nat) (b : Block) :
    (finish r b).lb = b.lb := rfl
@[simp] theorem finish_opif (r : Option Nat) (b : Block) :
    (finish r b).opif = b.opif := rfl
@[simp] theorem finish_dp (r : Option Nat) (b : Block) :
    (finish r b).dp = { b.dp with phase := .idle } := rfl

@[simp] theorem finish_res_none (b : Block) : (finish none b).res = b.res := rfl
@[simp] theorem finish_res_some (v : Nat) (b : Block) : (finish (some v) b).res = words 16 v := rfl

@[simp] theorem clearDone_opa (v : Word) (b : Block) :
    (clearDone v b).opa = b.opa := by
  unfold clearDone; cases v.getLsbD 1 <;> simp
@[simp] theorem clearDone_opb (v : Word) (b : Block) :
    (clearDone v b).opb = b.opb := by
  unfold clearDone; cases v.getLsbD 1 <;> simp
@[simp] theorem clearDone_res (v : Word) (b : Block) :
    (clearDone v b).res = b.res := by
  unfold clearDone; cases v.getLsbD 1 <;> simp
@[simp] theorem clearDone_ie (v : Word) (b : Block) :
    (clearDone v b).ie = b.ie := by
  unfold clearDone; cases v.getLsbD 1 <;> simp
@[simp] theorem clearDone_lastcmd (v : Word) (b : Block) :
    (clearDone v b).lastcmd = b.lastcmd := by
  unfold clearDone; cases v.getLsbD 1 <;> simp
@[simp] theorem clearDone_busy (v : Word) (b : Block) :
    (clearDone v b).busy = b.busy := by
  unfold clearDone; cases v.getLsbD 1 <;> simp
@[simp] theorem clearDone_done (v : Word) (b : Block) :
    (clearDone v b).done = (b.done && !v.getLsbD 1) := by
  unfold clearDone; cases v.getLsbD 1 <;> simp
@[simp] theorem clearDone_err (v : Word) (b : Block) :
    (clearDone v b).err = b.err := by
  unfold clearDone; cases v.getLsbD 1 <;> simp
@[simp] theorem clearDone_ecode (v : Word) (b : Block) :
    (clearDone v b).ecode = b.ecode := by
  unfold clearDone; cases v.getLsbD 1 <;> simp
@[simp] theorem clearDone_la (v : Word) (b : Block) :
    (clearDone v b).la = b.la := by
  unfold clearDone; cases v.getLsbD 1 <;> simp
@[simp] theorem clearDone_lb (v : Word) (b : Block) :
    (clearDone v b).lb = b.lb := by
  unfold clearDone; cases v.getLsbD 1 <;> simp
@[simp] theorem clearDone_opif (v : Word) (b : Block) :
    (clearDone v b).opif = b.opif := by
  unfold clearDone; cases v.getLsbD 1 <;> simp
@[simp] theorem clearDone_dp (v : Word) (b : Block) :
    (clearDone v b).dp = b.dp := by
  unfold clearDone; cases v.getLsbD 1 <;> simp

@[simp] theorem clearErr_opa (v : Word) (b : Block) :
    (clearErr v b).opa = b.opa := by
  unfold clearErr; cases v.getLsbD 2 <;> simp
@[simp] theorem clearErr_opb (v : Word) (b : Block) :
    (clearErr v b).opb = b.opb := by
  unfold clearErr; cases v.getLsbD 2 <;> simp
@[simp] theorem clearErr_res (v : Word) (b : Block) :
    (clearErr v b).res = b.res := by
  unfold clearErr; cases v.getLsbD 2 <;> simp
@[simp] theorem clearErr_ie (v : Word) (b : Block) :
    (clearErr v b).ie = b.ie := by
  unfold clearErr; cases v.getLsbD 2 <;> simp
@[simp] theorem clearErr_lastcmd (v : Word) (b : Block) :
    (clearErr v b).lastcmd = b.lastcmd := by
  unfold clearErr; cases v.getLsbD 2 <;> simp
@[simp] theorem clearErr_busy (v : Word) (b : Block) :
    (clearErr v b).busy = b.busy := by
  unfold clearErr; cases v.getLsbD 2 <;> simp
@[simp] theorem clearErr_done (v : Word) (b : Block) :
    (clearErr v b).done = b.done := by
  unfold clearErr; cases v.getLsbD 2 <;> simp
@[simp] theorem clearErr_err (v : Word) (b : Block) :
    (clearErr v b).err = (b.err && !v.getLsbD 2) := by
  unfold clearErr; cases v.getLsbD 2 <;> simp
@[simp] theorem clearErr_ecode (v : Word) (b : Block) :
    (clearErr v b).ecode = if v.getLsbD 2 then 0 else b.ecode := by
  unfold clearErr; cases v.getLsbD 2 <;> simp
@[simp] theorem clearErr_la (v : Word) (b : Block) :
    (clearErr v b).la = b.la := by
  unfold clearErr; cases v.getLsbD 2 <;> simp
@[simp] theorem clearErr_lb (v : Word) (b : Block) :
    (clearErr v b).lb = b.lb := by
  unfold clearErr; cases v.getLsbD 2 <;> simp
@[simp] theorem clearErr_opif (v : Word) (b : Block) :
    (clearErr v b).opif = b.opif := by
  unfold clearErr; cases v.getLsbD 2 <;> simp
@[simp] theorem clearErr_dp (v : Word) (b : Block) :
    (clearErr v b).dp = b.dp := by
  unfold clearErr; cases v.getLsbD 2 <;> simp

@[simp] theorem writeStatus_opa (v : Word) (b : Block) :
    (writeStatus v b).opa = b.opa := by simp [writeStatus]
@[simp] theorem writeStatus_opb (v : Word) (b : Block) :
    (writeStatus v b).opb = b.opb := by simp [writeStatus]
@[simp] theorem writeStatus_res (v : Word) (b : Block) :
    (writeStatus v b).res = b.res := by simp [writeStatus]
@[simp] theorem writeStatus_ie (v : Word) (b : Block) :
    (writeStatus v b).ie = b.ie := by simp [writeStatus]
@[simp] theorem writeStatus_lastcmd (v : Word) (b : Block) :
    (writeStatus v b).lastcmd = b.lastcmd := by simp [writeStatus]
@[simp] theorem writeStatus_busy (v : Word) (b : Block) :
    (writeStatus v b).busy = b.busy := by simp [writeStatus]
@[simp] theorem writeStatus_done (v : Word) (b : Block) :
    (writeStatus v b).done = (b.done && !v.getLsbD 1) := by simp [writeStatus]
@[simp] theorem writeStatus_err (v : Word) (b : Block) :
    (writeStatus v b).err = (b.err && !v.getLsbD 2) := by simp [writeStatus]
@[simp] theorem writeStatus_ecode (v : Word) (b : Block) :
    (writeStatus v b).ecode = if v.getLsbD 2 then 0 else b.ecode := by simp [writeStatus]
@[simp] theorem writeStatus_la (v : Word) (b : Block) :
    (writeStatus v b).la = b.la := by simp [writeStatus]
@[simp] theorem writeStatus_lb (v : Word) (b : Block) :
    (writeStatus v b).lb = b.lb := by simp [writeStatus]
@[simp] theorem writeStatus_opif (v : Word) (b : Block) :
    (writeStatus v b).opif = b.opif := by simp [writeStatus]
@[simp] theorem writeStatus_dp (v : Word) (b : Block) :
    (writeStatus v b).dp = b.dp := by simp [writeStatus]

@[simp] theorem multEnter_acc (la lb : Operand) (d : Datapath) :
    (multEnter la lb d).acc = 0 := rfl
@[simp] theorem multEnter_wa (la lb : Operand) (d : Datapath) :
    (multEnter la lb d).wa = la.setWidth 512 := rfl
@[simp] theorem multEnter_wb (la lb : Operand) (d : Datapath) :
    (multEnter la lb d).wb = lb.setWidth 512 := rfl
@[simp] theorem multEnter_md (la lb : Operand) (d : Datapath) :
    (multEnter la lb d).md = d.md := rfl
@[simp] theorem multEnter_cnt (la lb : Operand) (d : Datapath) :
    (multEnter la lb d).cnt = 0 := rfl
@[simp] theorem multEnter_phase (la lb : Operand) (d : Datapath) :
    (multEnter la lb d).phase = .mult := rfl

@[simp] theorem redcEnter_acc (op : Instr) (la lb : Operand) (d : Datapath) :
    (redcEnter op la lb d).acc = if op = .red then redInput la lb else d.acc := rfl
@[simp] theorem redcEnter_wa (op : Instr) (la lb : Operand) (d : Datapath) :
    (redcEnter op la lb d).wa = d.wa := rfl
@[simp] theorem redcEnter_wb (op : Instr) (la lb : Operand) (d : Datapath) :
    (redcEnter op la lb d).wb = d.wb := rfl
@[simp] theorem redcEnter_md (op : Instr) (la lb : Operand) (d : Datapath) :
    (redcEnter op la lb d).md = BitVec.ofNat 512 (Config.p <<< (Config.W - 255)) := rfl
@[simp] theorem redcEnter_cnt (op : Instr) (la lb : Operand) (d : Datapath) :
    (redcEnter op la lb d).cnt = 0 := rfl
@[simp] theorem redcEnter_phase (op : Instr) (la lb : Operand) (d : Datapath) :
    (redcEnter op la lb d).phase = .redc := rfl

@[simp] theorem multBody_acc (d : Datapath) :
    (multBody d).acc = if d.wb.getLsbD 0 then wideAdd d.acc d.wa else d.acc := rfl
@[simp] theorem multBody_wa (d : Datapath) :
    (multBody d).wa = rotl1 d.wa := rfl
@[simp] theorem multBody_wb (d : Datapath) :
    (multBody d).wb = rotr1 d.wb := rfl
@[simp] theorem multBody_md (d : Datapath) :
    (multBody d).md = d.md := rfl
@[simp] theorem multBody_cnt (d : Datapath) :
    (multBody d).cnt = d.cnt + 1 := rfl
@[simp] theorem multBody_phase (d : Datapath) :
    (multBody d).phase = d.phase := rfl

@[simp] theorem redcBody_acc (d : Datapath) :
    (redcBody d).acc = if wideGe d.acc d.md then wideSub d.acc d.md else d.acc := by rw [redcBody]
@[simp] theorem redcBody_wa (d : Datapath) :
    (redcBody d).wa = d.wa := by rw [redcBody]
@[simp] theorem redcBody_wb (d : Datapath) :
    (redcBody d).wb = d.wb := by rw [redcBody]
@[simp] theorem redcBody_md (d : Datapath) :
    (redcBody d).md = rotr1 d.md := by rw [redcBody]
@[simp] theorem redcBody_cnt (d : Datapath) :
    (redcBody d).cnt = d.cnt + 1 := by rw [redcBody]
@[simp] theorem redcBody_phase (d : Datapath) :
    (redcBody d).phase = d.phase := by rw [redcBody]

end Sys2Proof.Machine
end

