-- ==== Sys2Proof/Laws/Ops.lean ====
section
/-! SUPPORT. What each shared operation and each step can do, said once. -/

namespace Sys2Proof.Machine

@[simp] theorem mapNext_next {σ τ φ ρ : Type} (f : σ → τ) (s : σ) :
    mapNext f (.next s : Host.Outcome σ φ ρ) = .next (f s) := rfl

/-- A mapped outcome that goes on comes from an outcome that goes on. -/
theorem mapNext_eq_next {σ τ φ ρ : Type} {f : σ → τ} {o : Host.Outcome σ φ ρ} {t : τ}
    (h : mapNext f o = .next t) : ∃ s, o = .next s ∧ f s = t := by
  cases o <;> simp_all [mapNext]

/-- Every command's CMD write is the issue of that command, on the block alone. -/
theorem exec_eq_issueLegal (i : Instr) (s : State) : exec i s = .next (s.onBlock (issueLegal i)) := by
  cases i <;> rfl

theorem issueLegal_idle {op : Instr} {b : Block} (h : b.busy = false) :
    issueLegal op b = accept op (encode op) b := by
  simp [issueLegal, h]

theorem issueLegal_busy {op : Instr} {b : Block} (h : b.busy = true) :
    issueLegal op b = reject .cmdWhileBusy b := by
  simp [issueLegal, h]

theorem issue_of_decode_ok {v : Word} {i : Instr} (h : decode v = .ok i) (s : State) :
    issue v s = .next (s.onBlock (issueLegal i)) := by
  simp [issue, h, exec_eq_issueLegal]

theorem issue_of_decode_error {v : Word} {e : DecodeError} (h : decode v = .error e) (s : State) :
    issue v s = .next (s.onBlock (reject .illegalCmd)) := by
  simp [issue, h]

/-- Completion of the command in flight writes that command's result. -/
theorem complete_busy {b : Block} (h : b.busy = true) :
    complete b = finish (result b.opif b.la.toNat b.lb.toNat) b := by
  cases ho : b.opif <;>
    simp [complete, h, ho, result, completeNop, completeMul, completeMulraw, completeRed]

theorem complete_idle {b : Block} (h : b.busy = false) : complete b = b := by
  simp [complete, h]

/-- Every way in which one step changes the block. -/
inductive BlockMove (b : Block) : Block → Prop where
  | same : BlockMove b b
  | reset : BlockMove b Block.reset
  | writeIe (f : Bool) : BlockMove b { b with ie := f }
  | writeStatus (v : Word) : BlockMove b (writeStatus v b)
  | writeOpa (i : Fin 8) (v : Word) : BlockMove b { b with opa := b.opa.set i v }
  | writeOpb (i : Fin 8) (v : Word) : BlockMove b { b with opb := b.opb.set i v }
  | accept (op : Instr) (h : b.busy = false) : BlockMove b (accept op (encode op) b)
  | reject (c : RejectCode) : BlockMove b (reject c b)
  | complete (h : b.busy = true) : BlockMove b (finish (result b.opif b.la.toNat b.lb.toNat) b)
  | mult (h : b.dp.phase = .mult) : BlockMove b { b with dp := multClock b.opif b.la b.lb b.dp }
  | redc (h : b.dp.phase = .redc) : BlockMove b { b with dp := redcClock b.dp }

theorem issueLegal_move (op : Instr) (b : Block) : BlockMove b (issueLegal op b) := by
  cases h : b.busy
  · rw [issueLegal_idle h]; exact .accept op h
  · rw [issueLegal_busy h]; exact .reject _

theorem complete_move (b : Block) : BlockMove b (complete b) := by
  cases h : b.busy
  · rw [complete_idle h]; exact .same
  · rw [complete_busy h]; exact .complete h

theorem clock_move (b : Block) : BlockMove b (clock b) := by
  unfold clock
  split
  · exact .same
  · exact .mult ‹_›
  · exact .redc ‹_›
  · exact complete_move b

theorem writeCtrl_move (v : Word) (b : Block) : BlockMove b (writeCtrl v b) := by
  unfold writeCtrl softReset
  split
  · exact .reset
  · exact .writeIe _

/-- A legal write changes the block by one move and nothing around it. -/
theorem writeReg_spec (r : Reg) (v : Word) (s : State) :
    ∃ b, writeReg r v s = .next { s with blk := b } ∧ BlockMove s.blk b := by
  cases r with
  | id => exact ⟨s.blk, rfl, .same⟩
  | ctrl => exact ⟨_, rfl, writeCtrl_move v s.blk⟩
  | cmd =>
    cases h : decode v with
    | ok i => exact ⟨_, issue_of_decode_ok h s, issueLegal_move i s.blk⟩
    | error e => exact ⟨_, issue_of_decode_error h s, .reject _⟩
  | status => exact ⟨_, rfl, .writeStatus v⟩
  | opa i => exact ⟨_, rfl, .writeOpa i v⟩
  | opb i => exact ⟨_, rfl, .writeOpb i v⟩
  | res j => exact ⟨s.blk, rfl, .same⟩

/-- A transaction changes the block by one move, and answers; nothing else around the block changes. -/
theorem transact_spec (t : Txn) (s : State) :
    ∃ b r, transact t s = .next { s with blk := b, resp := some r } ∧ BlockMove s.blk b ∧
      (target t = none → b = s.blk ∧ r = .busErr) ∧
      (∀ g, target t = some g → t.we = false → b = s.blk ∧ r = .data (readReg s.blk g)) ∧
      (∀ g, target t = some g → t.we = true → r = .ok) := by
  unfold transact
  split
  · exact ⟨s.blk, .busErr, rfl, .same, by simp_all, by simp_all, by simp_all⟩
  · rename_i g hg
    cases hw : t.we
    · exact ⟨s.blk, .data (readReg s.blk g), by simp [State.respond], .same, by simp_all, by simp_all, by simp_all⟩
    · obtain ⟨b, hb, hm⟩ := writeReg_spec g t.wdata s
      exact ⟨b, .ok, by simp [hb, State.respond], hm, by simp_all, by simp_all, by simp_all⟩

theorem target_of_addr {t : Txn} {r : Reg} (hbe : t.be = 0b1111) (h4 : t.addr.extractLsb' 0 2 = 0#2)
    (h : regOf t.addr = some r) : target t = some r := by
  simp [target, fullWordAccess, hbe, h4, h]

/-- A full-width CMD write issues its word. -/
theorem transact_cmd (v : Word) (s : State) :
    transact (writeTxn 0x008 v) s = mapNext (State.respond .ok) (issue v s) := by
  have h : target (writeTxn 0x008 v) = some .cmd := by
    simp [target, writeTxn, fullWordAccess, regOf]
  simp only [transact, h]
  rfl

/-- What the host does with a response changes neither the block, nor the turns, nor the response. -/
theorem afterResponse_frame (st : Stmt) (s : State) :
    (afterResponse st s).blk = s.blk ∧ (afterResponse st s).turns = s.turns ∧ (afterResponse st s).resp = s.resp := by
  unfold afterResponse
  split
  · exact ⟨rfl, rfl, rfl⟩
  · exact ⟨rfl, rfl, rfl⟩
  · exact ⟨rfl, rfl, rfl⟩
  · split <;> exact ⟨rfl, rfl, rfl⟩
  · exact ⟨rfl, rfl, rfl⟩

/-- A statement of the host alone performs no transaction and leaves the block and the turns. -/
theorem hostOnly_frame (st : Stmt) (s : State) :
    (hostOnly st s).blk = s.blk ∧ (hostOnly st s).turns = s.turns ∧ (hostOnly st s).resp = none := by
  unfold hostOnly
  split
  · split
    · split <;> simp
    · simp
  · split <;> simp
  · simp

/-- A statement goes on; it changes the block by one move and leaves the turns. -/
theorem runStmt_spec (st : Stmt) (s : State) :
    ∃ u, runStmt st s = .next u ∧ BlockMove s.blk u.blk ∧ u.turns = s.turns := by
  unfold runStmt
  split
  · rename_i t _
    obtain ⟨b, r, ht, hm, -⟩ := transact_spec t s
    obtain ⟨h1, h2, -⟩ := afterResponse_frame st { s with blk := b, resp := some r }
    refine ⟨_, by rw [ht, mapNext_next], ?_, h2⟩
    rw [h1]; exact hm
  · obtain ⟨h1, h2, -⟩ := hostOnly_frame st s
    exact ⟨_, rfl, by rw [h1]; exact .same, h2⟩

/-- The host's turn goes on; it changes the block by one move and leaves the turns. -/
theorem hostStep_spec (s : State) :
    ∃ u, hostStep s = .next u ∧ BlockMove s.blk u.blk ∧ u.turns = s.turns := by
  unfold hostStep
  split
  · exact runStmt_spec _ _
  · exact ⟨_, rfl, by simpa using .same, rfl⟩

/-- Any agent's turn goes on; it changes the block by one move and leaves the turns. -/
theorem runTurn_spec (t : Turn) (s : State) :
    ∃ u, runTurn t s = .next u ∧ BlockMove s.blk u.blk ∧ u.turns = s.turns := by
  cases t with
  | host => exact hostStep_spec s
  | complete => exact ⟨_, rfl, complete_move s.blk, rfl⟩
  | clock => exact ⟨_, rfl, clock_move s.blk, rfl⟩
  | hardReset => exact ⟨_, rfl, .reset, rfl⟩

/-- Inversion of a step: the turn it takes, its move of the block, and the turns that remain. -/
theorem step_cases {s u : State} (h : step s = .next u) :
    BlockMove s.blk u.blk ∧ u.turns = s.turns.tail := by
  unfold step takeTurn at h
  split at h
  · rename_i hs
    obtain ⟨u', hu, hm, ht⟩ := runTurn_spec (defaultTurn s) s
    rw [hu] at h; cases h
    exact ⟨hm, by simp [ht, hs]⟩
  · rename_i t ts hs
    obtain ⟨u', hu, hm, ht⟩ := runTurn_spec t { s with turns := ts }
    rw [hu] at h; cases h
    exact ⟨hm, by simp [ht, hs]⟩

end Sys2Proof.Machine
end

