-- ==== Sys2Proof/Laws/Master.lean ====
section
/-! SUPPORT. The host's statements and the loading of a multi-word value (30_encoding.md R78, R79). -/

namespace Sys2Proof.Machine

/-- A bit slice of a value that is a natural number is the slice of 00_scope.md R13. -/
theorem evalExpr_slice {vars : List (Var × Int)} {e : Expr} {v : Nat} (h : evalExpr vars e = some (v : Int))
    (hi lo : Nat) : evalExpr vars (.slice e hi lo) = some ((slice v hi lo : Nat) : Int) := by
  simp [evalExpr, h, slice, Nat.shiftRight_eq_div_pow]

/-- The datum that a write of `v.w[i]` carries (30_encoding.md R79). -/
theorem stmtTxn_wordExpr {vars : List (Var × Int)} {e : Expr} {v : Nat} (h : evalExpr vars e = some (v : Int))
    (off : BitVec 8) (i : Nat) :
    stmtTxn vars (.wr off (wordExpr e i)) =
      some (writeTxn off (BitVec.ofNat 32 (slice v (32 * i + 31) (32 * i)))) := by
  rw [stmtTxn, wordExpr, evalExpr_slice h, Option.map_some, BitVec.ofInt_natCast]

/-- The window offsets of OPA's and OPB's words (30_encoding.md R71). -/
theorem regOf_opa (i : Fin 8) : regOf (BitVec.ofNat 8 (0x040 + 4 * i.val)) = some (.opa i) := by
  revert i; decide

theorem regOf_opb (i : Fin 8) : regOf (BitVec.ofNat 8 (0x080 + 4 * i.val)) = some (.opb i) := by
  revert i; decide

theorem target_write_opa (i : Fin 8) (v : Word) :
    target (writeTxn (BitVec.ofNat 8 (0x040 + 4 * i.val)) v) = some (.opa i) := by
  refine target_of_addr rfl ?_ (regOf_opa i)
  have h : ∀ k : Fin 8, (BitVec.ofNat 8 (0x040 + 4 * k.val)).extractLsb' 0 2 = 0#2 := by decide
  exact h i

theorem target_write_opb (i : Fin 8) (v : Word) :
    target (writeTxn (BitVec.ofNat 8 (0x080 + 4 * i.val)) v) = some (.opb i) := by
  refine target_of_addr rfl ?_ (regOf_opb i)
  have h : ∀ k : Fin 8, (BitVec.ofNat 8 (0x080 + 4 * k.val)).extractLsb' 0 2 = 0#2 := by decide
  exact h i

/-- A write to a word of OPA stores it and answers OK (20_memory.md R54). -/
theorem transact_write_opa (i : Fin 8) (v : Word) (s : State) :
    transact (writeTxn (BitVec.ofNat 8 (0x040 + 4 * i.val)) v) s =
      .next { s with blk := { s.blk with opa := s.blk.opa.set i v }, resp := some .ok } := by
  simp only [transact, target_write_opa]
  rfl

/-- A write to a word of OPB stores it and answers OK (20_memory.md R54). -/
theorem transact_write_opb (i : Fin 8) (v : Word) (s : State) :
    transact (writeTxn (BitVec.ofNat 8 (0x080 + 4 * i.val)) v) s =
      .next { s with blk := { s.blk with opb := s.blk.opb.set i v }, resp := some .ok } := by
  simp only [transact, target_write_opb]
  rfl

/-- The host's turn, planned or by default, performs the host's next statement. -/
theorem step_host {s : State} {ts : List Turn} {st : Stmt} {rest : List Stmt}
    (hstop : s.master.stop = none) (hp : s.master.program = st :: rest)
    (ht : s.turns = .host :: ts ∨ (s.turns = [] ∧ ts = [] ∧ s.blk.busy = false)) :
    step s = runStmt st { s with turns := ts, master := { s.master with program := rest } } := by
  rcases ht with h | ⟨h, rfl, hb⟩
  · simp [step, takeTurn, h, runTurn, hostStep, hstop, hp]
  · simp [step, takeTurn, h, defaultTurn, hb, runTurn, hostStep, hstop, hp]

/-- A WR that is answered OK does to the state what its transaction does. -/
theorem runStmt_wr_ok {s t : State} {off : BitVec 8} {e : Expr} {x : Txn}
    (hx : stmtTxn s.master.vars (.wr off e) = some x) (ht : transact x s = .next t) (hr : t.resp = some .ok) :
    runStmt (.wr off e) s = .next t := by
  simp [runStmt, hx, ht, afterResponse, hr]

/-- From `s` to `t` the host's next statement is a legal write, answered OK, and the block changes as that write of that
register changes it. -/
def HostWrites (s t : State) : Prop :=
  ∃ (st : Stmt) (rest : List Stmt) (x : Txn) (r : Reg) (s0 : State),
    s.master.stop = none ∧ s.master.program = st :: rest ∧ stmtTxn s.master.vars st = some x ∧ x.we = true ∧
    target x = some r ∧ s0.blk = s.blk ∧ writeReg r x.wdata s0 = .next { s0 with blk := t.blk } ∧
    t.resp = some .ok

/-- What one host turn does to the block: nothing, or a legal write of the host's next statement. -/
theorem hostStep_block_cases {s t : State} (h : hostStep s = .next t) :
    t.blk = s.blk ∨ HostWrites s t := by
  unfold hostStep at h
  split at h
  case h_2 => cases h; exact .inl rfl
  rename_i st rest hstop hprog
  unfold runStmt at h
  split at h
  · rename_i x hx
    obtain ⟨u, hu, rfl⟩ := mapNext_eq_next h
    obtain ⟨e1, -, e3⟩ := afterResponse_frame st u
    unfold transact at hu
    split at hu
    · cases hu; exact .inl e1
    · rename_i r hr
      split at hu
      · rename_i hw
        obtain ⟨b, hb, -⟩ := writeReg_spec r x.wdata { s with master := { s.master with program := rest } }
        rw [hb] at hu
        cases hu
        exact .inr ⟨st, rest, x, r, { s with master := { s.master with program := rest } }, hstop, hprog, hx, hw, hr, rfl,
          by rw [e1]; exact hb, e3⟩
      · cases hu; exact .inl e1
  · cases h
    exact .inl (hostOnly_frame st _).1

/-- What one step does to the block, with the host's transaction named: nothing, the completion, a clock, a hard reset,
or a legal write of the host's next statement. -/
theorem step_block_cases {s t : State} (h : step s = .next t) :
    t.blk = s.blk ∨ t.blk = complete s.blk ∨ t.blk = clock s.blk ∨ t.blk = Block.reset ∨ HostWrites s t := by
  have turn : ∀ (u : Turn) (v : State), v.blk = s.blk → v.master = s.master → runTurn u v = .next t →
      t.blk = s.blk ∨ t.blk = complete s.blk ∨ t.blk = clock s.blk ∨ t.blk = Block.reset ∨ HostWrites s t := by
    intro u v hb hm hv
    cases u with
    | host =>
      have hc := hostStep_block_cases hv
      unfold HostWrites at hc
      rw [hb, hm] at hc
      exact hc.imp_right fun hw => .inr (.inr (.inr hw))
    | complete => cases hv; exact .inr (.inl (congrArg complete hb))
    | clock => cases hv; exact .inr (.inr (.inl (congrArg clock hb)))
    | hardReset => cases hv; exact .inr (.inr (.inr (.inl rfl)))
  unfold step takeTurn at h
  split at h
  · exact turn _ s rfl rfl h
  · rename_i u us _
    exact turn u { s with turns := us } rfl rfl h

end Sys2Proof.Machine
end

