-- ==== Sys2Proof/Laws/PerInstr.lean ====
section
/-! SUPPORT. Statements made for every command, one lemma per constructor. -/

namespace Sys2Proof.Laws.ReservedZero

/-- A command is well formed, and its word is a well-formed command word: reserved field 0, OP assigned
(30_encoding.md R72, R73). -/
def Statement (i : Instr) : Prop := i.wf = true ∧ commandWordWf (encode i) = true

theorem nop : Statement .nop := ⟨rfl, by decide⟩
theorem mul : Statement .mul := ⟨rfl, by decide⟩
theorem mulraw : Statement .mulraw := ⟨rfl, by decide⟩
theorem red : Statement .red := ⟨rfl, by decide⟩

end Sys2Proof.Laws.ReservedZero
end

