-- ==== Sys2Proof/Laws/Platform.lean ====
section
/-! SUPPORT. The windows of placed blocks (00_scope.md R11, 20_memory.md R51). -/

namespace Sys2Proof.Machine

theorem offsetIn_inside {base addr : Nat} (h1 : base ≤ addr) (h2 : addr < base + 256) :
    offsetIn base addr = some (BitVec.ofNat 8 (addr - base)) := by
  simp [offsetIn, h1, h2]

theorem offsetIn_outside {base addr : Nat} (h : addr < base ∨ base + 256 ≤ addr) : offsetIn base addr = none := by
  unfold offsetIn
  rw [if_neg (by omega)]

/-- BASE is 256-byte aligned, so an address is in the windows of two blocks only if they stand at one BASE. -/
theorem baseOf_eq_of_common_address {q r : Placed} {addr : Nat} (hq : baseOf q ≤ addr) (hq' : addr < baseOf q + 256)
    (hr : baseOf r ≤ addr) (hr' : addr < baseOf r + 256) : baseOf q = baseOf r := by
  unfold baseOf at *
  omega

end Sys2Proof.Machine
end

