-- ==== Sys2Proof/Tests/Slice0.lean ====
section
/-! SUPPORT. Small tests, with expected values from the spec's tables, and a witness for the hypotheses of every
statement that has some. -/

namespace Sys2Proof.Tests

open Sys2Proof.Machine Sys2Proof.Claims

/-- A block out of reset with the operands a and b loaded. -/
def loaded (a b : Nat) : Block := { Block.reset with opa := words 8 a, opb := words 8 b }

/-- A block with a command in flight on the operands a and b. -/
def inFlight (i : Instr) (a b : Nat) : Block := issueLegal i (loaded a b)

/-- The machine around a block, with a host program and planned turns. -/
def machine (b : Block) (program : List Stmt) (turns : List Turn) : State :=
  { State.reset with blk := b, master := { program := program, vars := [], stop := none }, turns := turns }

/-- What a test reads of an outcome. -/
def look {α : Type} (f : State → α) : Host.Outcome State Fault Refusal → Option α
  | .next s => some (f s)
  | .fault _ => none
  | .refused _ => none

/-! ## Decoding: the pattern of 30_encoding.md R72, RSV in bits 31:4 and OP in bits 3:0 -/

theorem test_decode_nop : decode (0b0000000000000000000000000000#28 ++ 0b0000#4) = .ok .nop := by decide
theorem test_decode_mul : decode (0b0000000000000000000000000000#28 ++ 0b0001#4) = .ok .mul := by decide
theorem test_decode_mulraw : decode (0b0000000000000000000000000000#28 ++ 0b0010#4) = .ok .mulraw := by decide
theorem test_decode_red : decode (0b0000000000000000000000000000#28 ++ 0b0011#4) = .ok .red := by decide
/-- 95_test_vectors.md ERR-1 to ERR-6. -/
theorem test_decode_illegal : [0x4#32, 0xf#32, 0x10#32, 0x11#32, 0x80000001#32, 0xffffffff#32].map decode =
    [.error .reservedOp, .error .reservedOp, .error .reservedBits, .error .reservedBits, .error .reservedBits,
      .error .reservedBits] := by decide
theorem test_decode_short_stream : decodeBytes [0x01, 0x00, 0x00] = .error .truncated := by decide
/-- Little-endian: the byte at the lowest address is the OP byte (20_memory.md R58). -/
theorem test_decode_byte_order : decodeBytes [0x03, 0x00, 0x00, 0x00, 0x55] = .ok (.red, [0x55]) ∧
    decodeBytes [0x00, 0x00, 0x00, 0x03] = .error .reservedBits := by decide

/-! ## WellFormed: an ill-formed term for each check -/

theorem test_wf_reserved_field : commandWordWf 0x00000010 = false ∧ reservedFieldZero 0x00000010 = false := by decide
theorem test_wf_op : commandWordWf 0x00000004 = false ∧ opAssigned 0x00000004 = false := by decide
theorem test_wf_word : commandWordWf 0x00000003 = true := by decide
theorem test_wf_wr : (Stmt.wr 0x040 (.lit (2 ^ 32))).wf = false ∧ (Stmt.wr 0x040 (.lit (2 ^ 32 - 1))).wf = true := by
  decide
theorem test_wf_load : (Pseudo.lda (.lit (2 ^ 256))).wf = false ∧ (Pseudo.ldb (.lit (2 ^ 256))).wf = false ∧
    (Pseudo.lda (.lit (2 ^ 256 - 1))).wf = true := by decide
theorem test_wf_products : (Pseudo.fmul (.lit 1) (.lit (2 ^ 256)) 0).wf = false ∧
    (Pseudo.fsqr (.lit (2 ^ 256)) 0).wf = false ∧ (Pseudo.fmulraw (.lit (2 ^ 256)) (.lit 1) 0).wf = false := by decide
theorem test_wf_fred : (Pseudo.fred (.lit (2 ^ 256 * 2 ^ 256)) 0).wf = false := by decide +kernel

/-! ## The commands: vectors of 95_test_vectors.md 2.1 to 2.4, each one completion -/

/-- MUL-11. -/
theorem test_mul_largest : val (complete (inFlight .mul (2 ^ 256 - 1) (2 ^ 256 - 1))).res = 0x559 := by decide +kernel
/-- MUL-16. -/
theorem test_mul_one_subtraction : (complete (inFlight .mul 19 (2 ^ 251))).res.toList =
    [0x13, 0, 0, 0, 0, 0, 0, 0x18000000, 0, 0, 0, 0, 0, 0, 0, 0] := by decide +kernel
/-- RAW-2. -/
theorem test_mulraw_largest : (complete (inFlight .mulraw (2 ^ 256 - 1) (2 ^ 256 - 1))).res.toList =
    1 :: List.replicate 7 0 ++ 0xfffffffe :: List.replicate 7 0xffffffff := by decide +kernel
/-- RAW-6: a carry across a word boundary. -/
theorem test_mulraw_carry : (complete (inFlight .mulraw 0xffffffff 0xffffffff)).res.toList =
    1 :: 0xfffffffe :: List.replicate 14 0 := by decide +kernel
/-- RED-9: OPB is the upper half. -/
theorem test_red_upper_half : val (complete (inFlight .red 0 1)).res = 0x26 := by decide +kernel
/-- RED-13. -/
theorem test_red_largest : val (complete (inFlight .red (2 ^ 256 - 1) (2 ^ 256 - 1))).res = 0x5a3 := by decide +kernel
/-- NOP-2: STATUS while NOP is in flight after MUL-4, and RES after its completion. -/
theorem test_nop_keeps_res : statusWord (issueLegal .nop (complete (inFlight .mul 3 5))) = 0x00000001 ∧
    (complete (issueLegal .nop (complete (inFlight .mul 3 5)))).res[0] = 0x0000000f := by decide +kernel
/-- NOP-3. -/
theorem test_nop_irq : irq (complete (issueLegal .nop { Block.reset with ie := true })) = true := by decide

/-! ## Errors, registers, bus: 95_test_vectors.md 2.5 to 2.7 -/

/-- ERR-9 and ERR-10. -/
theorem test_illegal_before_busy :
    look (fun s => statusWord s.blk) (transact (writeTxn 0x008 0x00000004) (machine (inFlight .mul 3 5) [] [])) =
      some 0x00000015 ∧
    look (fun s => statusWord s.blk)
      (transact (writeTxn 0x008 0x00000001) (machine (reject .illegalCmd (inFlight .mul 3 5)) [] [])) =
      some 0x00000025 := by decide +kernel
/-- ERR-12. -/
theorem test_accept_keeps_err : statusWord (issueLegal .mul (reject .illegalCmd Block.reset)) = 0x00000015 := by decide
/-- REG-6, REG-7, REG-8. -/
theorem test_status_w1c : [0x2#32, 0x4#32, 0xffffffff#32].map (fun v =>
    statusWord (writeStatus v { Block.reset with done := true, err := true, ecode := 2 })) =
    [0x24#32, 0x2#32, 0x0#32] := by decide
/-- REG-4 and REG-5. -/
theorem test_ctrl : ctrlWord (writeCtrl 0xfffffffd Block.reset) = 1 ∧
    (writeCtrl 0x00000003 { loaded 3 0 with ie := true }) = Block.reset := by decide +kernel
/-- BUS-7 and BUS-10. -/
theorem test_bus_no_effect :
    look (fun s => (s.blk.opa[0], s.resp)) (transact { we := true, addr := 0x040, be := 0b0011, wdata := 0xffffffff }
      State.reset) = some (0, some .busErr) ∧
    look (fun s => (s.blk.res[0], s.resp)) (transact (writeTxn 0x0C0 5) State.reset) = some (0, some .ok) := by decide
/-- The ends of every range of the window (30_encoding.md R70, R71). -/
theorem test_window_map : [0x00#8, 0x04#8, 0x08#8, 0x0C#8, 0x40#8, 0x5C#8, 0x80#8, 0x9C#8, 0xC0#8, 0xFC#8].map regOf =
    [some .id, some .ctrl, some .cmd, some .status, some (.opa 0), some (.opa 7), some (.opb 0), some (.opb 7),
      some (.res 0), some (.res 15)] := by decide
theorem test_window_holes : [0x10#8, 0x3C#8, 0x60#8, 0x7C#8, 0xA0#8, 0xBC#8, 0x41#8, 0x5F#8, 0xFF#8].map
    (fun a => target (readTxn a)) = List.replicate 9 none := by decide

/-! ## The datapath: one clock each -/

/-- The first rows of 41_reference_datapath.md R141: iteration 0 of MUL 3 * 5. -/
theorem test_mult_clock : (clock (inFlight .mul 3 5)).dp.acc = 3 ∧ (clock (inFlight .mul 3 5)).dp.wa = 6 ∧
    (clock (clock (inFlight .mul 3 5))).dp.acc = 3 := by decide +kernel
/-- R141's RED trace at k = 257: the accumulator 2^255 loses p once. -/
theorem test_redc_clock : (redcBody { Datapath.reset with
    acc := BitVec.ofNat 512 (2 ^ 255), md := BitVec.ofNat 512 Config.p, cnt := 257, phase := .redc }).acc = 19 := by
  decide +kernel

/-! ## Steps -/

theorem test_step_runs_placed_word :
    look (fun s => (s.blk.busy, s.blk.opif, s.blk.lastcmd, s.resp)) (step (State.reset.withFetchWord 32 3)) =
      some (true, .red, 3, some .ok) := by decide +kernel
/-- Without planned turns the owed completion comes before the host's next statement. -/
theorem test_default_turn_completes :
    look (fun s => (statusWord s.blk, s.resp)) (step (machine (inFlight .mul 3 5) [.cmd .nop] [])) =
      some (0x00000002, none) := by decide +kernel
/-- POLL whose condition fails stays in the program (30_encoding.md R78). -/
theorem test_poll_repeats :
    look (fun s => s.master.program) (step (machine (inFlight .mul 3 5) [waitStmt] [.host])) = some [waitStmt] := by
  decide +kernel
/-- 00_scope.md R13: bits 31 down to 4 of 0xABC, and the slice of one bit. -/
theorem test_host_slice : evalExpr [] (.slice (.lit 0xABC) 31 4) = some 0xAB ∧
    evalExpr [] (.slice (.lit 0xABC) 2 2) = some 1 := by decide
/-- BUSERR stops the host program (30_encoding.md R78). -/
theorem test_host_stops_on_buserr :
    look (fun s => s.master.stop) (step (machine Block.reset [.rd 0x010 (.name 0)] [])) = some (some .busErr) := by
  decide
/-- 95_test_vectors.md P4: the host's (9 - 10) mod p. -/
theorem test_host_sub_mod_p : evalExpr [] (.modP (.sub (.lit 9) (.lit 10))) = some (Config.p - 1 : Int) := by decide

/-! ## Witnesses -/

theorem witness_SoftResetThroughCtrl : (0x00000003#32).getLsbD 1 = true := by decide
theorem witness_HardResetStep : (machine (inFlight .mul 3 5) [] [.hardReset]).turns = .hardReset :: [] := by decide
theorem witness_ResetAbandonsTheCommand : (machine (inFlight .mul 3 5) [] []).blk.busy = true := by decide +kernel
theorem witness_DecodeIsTotalAndIssueFollows_idle : decode 3 = .ok .red ∧ State.reset.blk.busy = false := by decide
theorem witness_DecodeIsTotalAndIssueFollows_busy :
    decode 0 = .ok .nop ∧ (machine (inFlight .red 1 2) [] []).blk.busy = true := by decide +kernel
theorem witness_DecodeIsTotalAndIssueFollows_illegal : decode 4 = .error .reservedOp := by decide
theorem witness_AcceptanceEffects_accepts : decode 1 = .ok .mul ∧ State.reset.blk.busy = false := by decide
theorem witness_AcceptanceEffects_rejects :
    ¬(∃ i, decode 1 = .ok i ∧ (machine (inFlight .mul 3 5) [] []).blk.busy = false) := by
  rintro ⟨_, -, h⟩
  exact absurd h (by decide +kernel)
theorem witness_IllegalCommandIsRejected_op : (0x00000004#32) >>> 4 = 0 ∧ 4 ≤ (0x00000004#32).toNat % 16 := by decide
theorem witness_IllegalCommandIsRejected_rsv : (0x00000010#32) >>> 4 ≠ 0 := by decide
theorem witness_BusyCommandIsRejected :
    (0x00000003#32).toNat < 4 ∧ (machine (inFlight .mul 3 5) [] []).blk.busy = true := by decide +kernel
theorem witness_RejectionIsPrecise :
    decode 4 = .error .reservedOp ∧ (decode 3 = .ok .red ∧ (machine (inFlight .nop 0 0) [] []).blk.busy = true) := by
  decide +kernel
theorem witness_StepRunsTheWrittenCommand_access : decode 1 = .ok .mul ∧
    (machine (loaded 3 5) [.access (writeTxn 0x008 1)] [.host]).master.stop = none ∧
    (machine (loaded 3 5) [.access (writeTxn 0x008 1)] [.host]).master.program = .access (writeTxn 0x008 1) :: [] ∧
    (machine (loaded 3 5) [.access (writeTxn 0x008 1)] [.host]).turns = .host :: [] := by decide +kernel
theorem witness_StepRunsTheWrittenCommand_default : decode 1 = .ok .mul ∧
    (machine (loaded 3 5) [.wr 0x008 (.lit 1)] []).master.stop = none ∧
    (machine (loaded 3 5) [.wr 0x008 (.lit 1)] []).master.program = .wr 0x008 (.lit (1#32).toNat) :: [] ∧
    (machine (loaded 3 5) [.wr 0x008 (.lit 1)] []).turns = [] ∧
    (machine (loaded 3 5) [.wr 0x008 (.lit 1)] []).blk.busy = false := by decide +kernel
theorem witness_StepRunsTheWrittenCommand_placed : decode (BitVec.ofNat 32 3) = .ok .red ∧ 3 < 2 ^ 32 := by decide
theorem witness_commands_idle : (machine (loaded 3 5) [] []).blk.busy = false := by decide +kernel
theorem witness_commands_busy : ([.nop, .mul, .mulraw, .red].map fun i => (inFlight i 3 5).busy) =
    [true, true, true, true] := by decide +kernel
/-- A later state with the command of `completesAs` still in flight: the host has written OPA since. -/
theorem witness_commands_later :
    ({ inFlight .mul 3 5 with opa := words 8 7 }).busy = true ∧
    ({ inFlight .mul 3 5 with opa := words 8 7 }).opif = (inFlight .mul 3 5).opif ∧
    ({ inFlight .mul 3 5 with opa := words 8 7 }).la = (inFlight .mul 3 5).la ∧
    ({ inFlight .mul 3 5 with opa := words 8 7 }).opa ≠ (inFlight .mul 3 5).opa := by decide +kernel
theorem witness_MulRuns_zero : (0 : Nat) = 0 ∨ (5 : Nat) = 0 := Or.inl rfl
theorem witness_RedRuns_below_p : 1 < Config.p := by decide
theorem witness_CommandIssueFrame :
    look (fun t => t.blk.busy) (exec .mul (machine (loaded 3 5) [] [])) = some true ∧
    ¬(0x008 ≤ (0x010#8).toNat ∧ (0x010#8).toNat ≤ 0x00F) ∧ ¬(0x008 ≤ (0x007#8).toNat ∧ (0x007#8).toNat ≤ 0x00F) := by
  decide +kernel
theorem witness_CompletionFrame : (inFlight .nop 3 5).busy = true ∧ (inFlight .nop 3 5).opif = .nop ∧
    ¬(0x00C ≤ (0x00B#8).toNat ∧ (0x00B#8).toNat ≤ 0x00F) ∧ (0x0BF#8).toNat < 0x0C0 := by decide +kernel
theorem witness_CompletionEnabledWhenBusy :
    (machine (inFlight .red 3 5) [] [.complete]).turns = .complete :: [] ∧
    (machine (inFlight .red 3 5) [] [.complete]).blk.busy = true ∧
    (machine (loaded 3 5) [] [.complete]).blk.busy = false := by decide +kernel
theorem witness_CommandInFlightEnds : (machine (inFlight .mulraw 3 5) [.cmd .nop] [.host, .clock]).blk.busy = true := by
  decide +kernel
theorem witness_OutputsAreCanonical : (inFlight .mul 3 5).busy = true ∧ (inFlight .mul 3 5).opif = .mul ∧
    (inFlight .mulraw 3 5).opif = .mulraw := by decide +kernel
/-- RAW-3 loaded for RED-10: the two halves of (p-1)^2. -/
theorem witness_MulIsMulrawThenRed :
    let raw := (complete (inFlight .mulraw (Config.p - 1) (Config.p - 1))).res
    let c := loaded (val raw % 2 ^ 256) (val raw / 2 ^ 256)
    (loaded (Config.p - 1) (Config.p - 1)).busy = false ∧ c.busy = false ∧
    (∀ i : Fin 8, c.opa[i] = raw[i.val]) ∧ (∀ i : Fin 8, c.opb[i] = raw[i.val + 8]) := by decide +kernel
theorem witness_IllegalAccess_ends : [0x010#8, 0x03F#8, 0x060#8, 0x07F#8, 0x0A0#8, 0x0BF#8, 0x0FD#8].map
    (fun a => target (readTxn a)) = List.replicate 7 none ∧
    target { we := false, addr := 0x040, be := 0b0001, wdata := 0 } = none := by decide
theorem witness_IllegalAccess : illegalAccess (readTxn 0x010) ∧ illegalAccess (readTxn 0x0FD) ∧
    illegalAccess { we := true, addr := 0x040, be := 0b0011, wdata := 0 } ∧ ¬ illegalAccess (readTxn 0x00C) ∧
    ¬ illegalAccess (writeTxn 0x0FC 1) := by unfold illegalAccess; decide
/-- Each clause of the read and write maps, at the ends of its range. -/
theorem witness_ReadAndWriteMaps : (readTxn 0x000).we = false ∧ (writeTxn 0x000 0).we = true ∧
    ([0x000#8, 0x004#8, 0x008#8, 0x00C#8, 0x040#8, 0x05C#8, 0x080#8, 0x09C#8, 0x0C0#8, 0x0FC#8].map fun a =>
      (target (readTxn a)).isSome) = List.replicate 10 true ∧
    (0x05C#8).toNat = 0x040 + 4 * (7 : Fin 8).val ∧ (0x09C#8).toNat = 0x080 + 4 * (7 : Fin 8).val ∧
    (0x0FC#8).toNat = 0x0C0 + 4 * (15 : Fin 16).val ∧ (0x00000001#32).getLsbD 1 = false := by decide
theorem witness_step_answers :
    look (fun t => t.blk.opa[0]) (step (machine Block.reset [.wr 0x040 (.lit 7)] [])) = some 7 ∧
    look (fun t => t.blk.res[0]) (step (machine (inFlight .mul 3 5) [] [])) = some 15 ∧
    look (fun t => t.blk.lastcmd) (step (machine Block.reset [.cmd .red] [])) = some 3 := by decide +kernel
theorem witness_LatchesDecideTheResult : (inFlight .mul 3 5).busy = true ∧
    ({ inFlight .mul 3 5 with opa := words 8 7, lastcmd := 0 }).la = (inFlight .mul 3 5).la ∧
    (inFlight .mul 3 5).opif ≠ .nop ∧
    look (fun t => t.blk.la) (step (machine (inFlight .mul 3 5) [.wr 0x040 (.lit 7)] [.host])) = some 3 := by
  decide +kernel
theorem witness_CtrlWriteAndRead : (0x00000002#32).getLsbD 1 = true ∧ (0xfffffffd#32).getLsbD 1 = false := by decide
/-- A step of `CtrlWriteAndRead` by the host's CTRL write, in a busy block. -/
theorem witness_CtrlWriteAndRead_step : stmtTxn [] (.wr 0x004 (.lit 1)) = some (writeTxn 0x004 1) ∧
    target (writeTxn 0x004 1) = some .ctrl ∧
    look (fun t => (t.blk.ie, t.resp)) (step (machine (inFlight .mul 3 5) [.wr 0x004 (.lit 1)] [.host])) =
      some (true, some .ok) := by decide +kernel
theorem witness_StatusWriteClears : (0x00000002#32).getLsbD 1 = true ∧ (0x00000002#32).getLsbD 2 = false ∧
    (0x00000004#32).getLsbD 1 = false ∧ (0x00000004#32).getLsbD 2 = true := by decide
theorem witness_IrqFollowsItsSources : ({ inFlight .nop 0 0 with ie := true }).busy = true ∧
    ({ Block.reset with ie := true, err := true }).busy = false := by decide +kernel
theorem witness_IdempotencyOfAccesses : (readTxn 0x00C).we = false ∧ (0x00000002#32).getLsbD 1 = true ∧
    State.reset.blk.busy = false := by decide

/-- A state in the multiply loop that satisfies the invariant, with a step that answers. -/
theorem witness_Invariant_mult : (machine (clock (inFlight .mul 3 5)) [] [.clock]).Inv ∧
    (look (fun t => t.blk.dp.cnt) (step (machine (clock (inFlight .mul 3 5)) [] [.clock]))) = some 2 := by
  refine ⟨⟨?_, ⟨⟨.mul, ?_⟩, ?_⟩, ?_, ?_⟩, ?_⟩
  · unfold statusInv; decide +kernel
  · decide +kernel
  · decide +kernel
  · intro h
    exact absurd h (by decide +kernel)
  · have hp : (machine (clock (inFlight .mul 3 5)) [] [.clock]).blk.dp.phase = .mult := by decide +kernel
    unfold datapathInv
    rw [hp]
    unfold multInv
    decide +kernel
  · decide +kernel

/-- A state in the reduce loop that satisfies the invariant. -/
theorem witness_Invariant_redc : (machine (clock (inFlight .red 3 5)) [] [.clock]).Inv := by
  refine ⟨?_, ⟨⟨.red, ?_⟩, ?_⟩, ?_, ?_⟩
  · unfold statusInv; decide +kernel
  · decide +kernel
  · decide +kernel
  · intro h
    exact absurd h (by decide +kernel)
  · have hp : (machine (clock (inFlight .red 3 5)) [] [.clock]).blk.dp.phase = .redc := by decide +kernel
    unfold datapathInv
    rw [hp]
    unfold redcInv
    decide +kernel

theorem witness_WordwiseCompare : (words 16 (2 ^ 256))[(8 : Fin 16)] ≠ (words 16 (2 ^ 255))[(8 : Fin 16)] ∧
    (∀ m : Fin 16, 8 < m → (words 16 (2 ^ 256))[m] = (words 16 (2 ^ 255))[m]) ∧
    (∀ k : Fin 16, (words 16 7)[k] = (words 16 7)[k]) := by decide +kernel
theorem witness_WordwiseAddAndSubtract : (1 : Wide).toNat ≤ (3 : Wide).toNat := by decide +kernel
theorem witness_RotationsAreCircular : (0 : Nat) < 512 ∧ (511 : Nat) < 512 := by decide
theorem witness_ReferenceDatapath : (loaded 3 5).busy = false ∧ 0 < referenceLatency .nop ∧
    result .mul (val (loaded 3 5).opa) (val (loaded 3 5).opb) = some 15 := by decide +kernel
/-- Planned clock turns outside FIN, in FIN and in IDLE. -/
theorem witness_ReferenceClockFrame : (machine (inFlight .mul 3 5) [] [.clock]).turns = .clock :: [] ∧
    (inFlight .mul 3 5).dp.phase ≠ .fin ∧ (inFlight .nop 3 5).dp.phase = .fin ∧ (loaded 3 5).dp.phase = .idle := by
  decide +kernel
theorem witness_HostStatements_wr :
    look (fun u => u.resp) (transact (writeTxn 0x010 1) State.reset) = some (some .busErr) ∧
    look (fun u => u.resp) (transact (writeTxn 0x040 1) State.reset) = some (some .ok) := by decide
theorem witness_HostStatements_poll :
    look (fun u => u.resp) (transact (readTxn 0x00C) State.reset) = some (some (.data 0)) ∧
    (0#32 &&& 1#32 = 0#32) ∧ (0#32 &&& 2#32 ≠ 2#32) := by decide
theorem witness_HostStatements_check : evalExpr [(.status, 2)] (.var .status) = some 2 ∧
    evalExpr [(.status, 2)] (.lit 2) = some 2 ∧ evalExpr [(.status, 2)] (.lit 3) = some 3 := by decide
/-- Every statement form of `HostStatements`, as the host's next statement on a planned turn. -/
theorem witness_HostStatements_state :
    ([.wr 0x040 (.lit 1), .rd 0x00C .status, waitStmt, .check (.lit 2) (.lit 2), .assign (.name 0) (.lit 7),
        .access (readTxn 0x041), .cmd .nop] : List Stmt).map
      (fun st => ((machine Block.reset [st] [.host]).turns, (machine Block.reset [st] [.host]).master.stop,
        (machine Block.reset [st] [.host]).master.program == [st])) =
    List.replicate 7 ([.host], none, true) ∧ evalExpr [] (.lit 7) = some 7 ∧ (1 : Nat) < 2 ^ 32 := by decide +kernel
/-- Each form of `HostStatements` in one step, from the same states. -/
theorem witness_HostStatements_step :
    look (fun t => t.blk.opa[0]) (step (machine Block.reset [.wr 0x040 (.lit 1)] [.host])) = some 1 ∧
    look (fun t => lookupVar .status t.master.vars) (step (machine Block.reset [.rd 0x000 .status] [.host])) =
      some (some 0x4D4D2501) ∧
    look (fun t => t.master.stop) (step (machine Block.reset [.check (.lit 2) (.lit 3)] [.host])) =
      some (some .checkFailed) ∧
    look (fun t => lookupVar (.name 0) t.master.vars) (step (machine Block.reset [.assign (.name 0) (.lit 7)] [.host])) =
      some (some 7) ∧
    look (fun t => (t.resp, t.master.stop)) (step (machine Block.reset [.access (readTxn 0x041)] [.host])) =
      some (some .busErr, none) := by decide +kernel
/-- The loading host of `LoadPseudoInstructions` with a command in flight and planned turns (95_test_vectors.md P5). -/
theorem witness_LoadPseudoInstructions_busy : (7 : Nat) < 2 ^ 256 ∧ evalExpr [] (.lit 7) = some ((7 : Nat) : Int) ∧
    (machine (inFlight .mul 3 5) (expand (.lda (.lit 7)) ++ [waitStmt]) (List.replicate 8 .host ++ [.complete])).turns =
      List.replicate 8 .host ++ [.complete] ∧
    (machine (inFlight .mul 3 5) (expand (.lda (.lit 7)) ++ [waitStmt]) []).master.program =
      expand (.lda (.lit 7)) ++ [waitStmt] ∧
    (machine (inFlight .mul 3 5) (expand (.ldb (.lit 7)) ++ [waitStmt]) []).master.program =
      expand (.ldb (.lit 7)) ++ [waitStmt] ∧
    (machine (inFlight .mul 3 5) (expand (.lda (.lit 7))) []).master.stop = none ∧
    (machine (inFlight .mul 3 5) (expand (.lda (.lit 7))) []).blk.busy = true := by decide +kernel
theorem witness_LoadPseudoInstructions_default :
    (machine Block.reset (expand (.lda (.lit 5))) []).turns = [] ∧
    (machine Block.reset (expand (.lda (.lit 5))) []).blk.busy = false ∧
    (machine Block.reset (expand (.lda (.lit 5))) []).master.stop = none ∧
    (machine Block.reset (expand (.lda (.lit 5))) []).master.program = expand (.lda (.lit 5)) ++ [] := by
  decide +kernel
/-- FRED's slices (30_encoding.md R79) as the value to load: the upper half of 2^256 + 2^255. -/
theorem witness_LoadPseudoInstructions_slice :
    evalExpr [(.name 0, 2 ^ 256 + 2 ^ 255)] (.slice (.var (.name 0)) 511 256) = some ((1 : Nat) : Int) ∧
    evalExpr [(.name 0, 2 ^ 256 + 2 ^ 255)] (.slice (.var (.name 0)) 255 0) = some ((2 ^ 255 : Nat) : Int) := by
  decide +kernel
/-- A step of `OperandWordsHoldWhatTheHostWrote` by the host's write, in a busy block. -/
theorem witness_OperandWords : stmtTxn [] (.wr 0x09C (.lit 7)) = some (writeTxn 0x09C 7) ∧
    (writeTxn 0x09C 7).we = true ∧ target (writeTxn 0x09C 7) = some (.opb 7) ∧
    look (fun t => (t.blk.opb[7], t.resp)) (step (machine (inFlight .mul 3 5) [.wr 0x09C (.lit 7)] [.host])) =
      some (7, some .ok) := by decide +kernel

/-- Two blocks at two bases (00_scope.md R11, R12). -/
def twoBlocks : Platform := [{ baseIndex := 1, st := State.reset }, { baseIndex := 2, st := State.reset }]

theorem witness_BlocksShareNoState : platformWf twoBlocks = true ∧
    (∃ Q, platformStep 1 twoBlocks = .next Q) ∧ (∃ Q, platformAccess 0x200 true 0b1111 1 twoBlocks = .next Q) ∧
    0x1FF < baseOf { baseIndex := 2, st := State.reset } :=
  ⟨by decide, ⟨_, rfl⟩, ⟨_, rfl⟩, by decide⟩

/-- The first and last address of each window, and the addresses next to them, on the platform of two blocks. -/
theorem witness_BlocksShareNoState_windows :
    [0x0FF, 0x100, 0x1FF, 0x200, 0x2FF, 0x300].map
      (fun addr => twoBlocks.map fun q => decide (baseOf q ≤ addr ∧ addr < baseOf q + 256)) =
    [[false, false], [true, false], [true, false], [false, true], [false, true], [false, false]] := by decide

/-- A write to CTRL of the second block reaches that block alone; one beyond the windows reaches none. -/
theorem test_platform_access :
    (match platformAccess 0x204 true 0b1111 1 twoBlocks with
      | .next Q => Q.map fun q => q.st.blk.ie
      | .fault _ => []
      | .refused _ => []) = [false, true] ∧
    (match platformAccess 0x304 true 0b1111 1 twoBlocks with
      | .next Q => Q.map fun q => q.st.blk.ie
      | .fault _ => []
      | .refused _ => []) = [false, false] := by decide

end Sys2Proof.Tests
end

section
/-! PROOFS. The registers of 10_state.md: the rules of the reset, of a transaction by the register it reaches, and of
what each step leaves of the registers that only the host sets; then the statements on OPA and OPB, RES, the latches,
CTRL, irq and the reset table. -/

namespace Sys2Proof.Machine

open Sys2Proof.Claims

/-! ## Reset -/

/-- The block's reset state satisfies the reset table (10_state.md R36). -/
theorem atReset_reset : atReset Block.reset := by
  unfold atReset
  decide

/-! ## A transaction, by the register it reaches -/

/-- A legal write is answered OK and does what the write of its register does (20_memory.md R54). -/
theorem transact_write {t : Txn} {r : Reg} (ht : target t = some r) (hw : t.we = true) (s : State) :
    transact t s = mapNext (State.respond .ok) (writeReg r t.wdata s) := by
  simp [transact, ht, hw]

/-- A legal read answers the register and changes nothing else (20_memory.md R53). -/
theorem transact_read {t : Txn} {r : Reg} (ht : target t = some r) (hw : t.we = false) (s : State) :
    transact t s = .next { s with resp := some (.data (readReg s.blk r)) } := by
  simp [transact, ht, hw, State.respond]

/-- Which register an access of full width reaches does not depend on its direction or datum. -/
theorem target_readTxn (off : BitVec 8) (v : Word) : target (readTxn off) = target (writeTxn off v) := rfl

theorem target_write_ctrl (v : Word) : target (writeTxn 0x004 v) = some .ctrl := by
  simp [target, writeTxn, fullWordAccess, regOf]

theorem target_write_res (j : Fin 16) (v : Word) :
    target (writeTxn (BitVec.ofNat 8 (0x0C0 + 4 * j.val)) v) = some (.res j) := by
  have aligned : ∀ k : Fin 16, (BitVec.ofNat 8 (0x0C0 + 4 * k.val)).extractLsb' 0 2 = 0#2 := by decide
  have named : ∀ k : Fin 16, regOf (BitVec.ofNat 8 (0x0C0 + 4 * k.val)) = some (.res k) := by decide
  exact target_of_addr rfl (aligned j) (named j)

theorem transact_read_opa (i : Fin 8) (s : State) :
    transact (readTxn (BitVec.ofNat 8 (0x040 + 4 * i.val))) s = .next { s with resp := some (.data s.blk.opa[i]) } :=
  transact_read ((target_readTxn _ 0).trans (target_write_opa i 0)) rfl s

theorem transact_read_opb (i : Fin 8) (s : State) :
    transact (readTxn (BitVec.ofNat 8 (0x080 + 4 * i.val))) s = .next { s with resp := some (.data s.blk.opb[i]) } :=
  transact_read ((target_readTxn _ 0).trans (target_write_opb i 0)) rfl s

theorem transact_read_res (j : Fin 16) (s : State) :
    transact (readTxn (BitVec.ofNat 8 (0x0C0 + 4 * j.val))) s = .next { s with resp := some (.data s.blk.res[j]) } :=
  transact_read ((target_readTxn _ 0).trans (target_write_res j 0)) rfl s

/-- A write to a word of RES is answered OK and ignored (20_memory.md R57). -/
theorem transact_write_res (j : Fin 16) (v : Word) (s : State) :
    transact (writeTxn (BitVec.ofNat 8 (0x0C0 + 4 * j.val)) v) s = .next { s with resp := some .ok } :=
  transact_write (target_write_res j v) rfl s

theorem transact_write_ctrl (v : Word) (s : State) :
    transact (writeTxn 0x004 v) s = .next { s with blk := writeCtrl v s.blk, resp := some .ok } :=
  transact_write (target_write_ctrl v) rfl s

/-! ## CTRL -/

theorem writeCtrl_srst {v : Word} (h : v.getLsbD 1 = true) (b : Block) : writeCtrl v b = Block.reset := by
  rw [writeCtrl, if_pos h, softReset]

theorem writeCtrl_ie {v : Word} (h : v.getLsbD 1 = false) (b : Block) :
    writeCtrl v b = { b with ie := v.getLsbD 0 } := by
  rw [writeCtrl, if_neg (ne_true_of_eq_false h)]

/-- With IE set from bit 0 of a word, CTRL reads as that bit alone. -/
theorem readReg_ctrl_of_ie {v : Word} {b : Block} (h : b.ie = v.getLsbD 0) : readReg b .ctrl = v &&& 1 := by
  rw [readReg, ctrlWord, flagBit, h]
  exact (BitVec.and_one_eq_setWidth_ofBool_getLsbD).symm

/-! ## What commands, completion and clocks leave -/

/-- The issue of a command writes no register that the host can read except CMD and STATUS. -/
theorem issueLegal_frame (op : Instr) (b : Block) : sameButCommandAndStatus b (issueLegal op b) := by
  unfold sameButCommandAndStatus
  cases h : b.busy
  · simp [issueLegal_idle h]
  · simp [issueLegal_busy h]

/-- A CMD write, legal or not, writes no register that the host can read except CMD and STATUS. -/
theorem issue_frame {v : Word} {s t : State} (h : issue v s = .next t) : sameButCommandAndStatus s.blk t.blk := by
  cases hd : decode v with
  | ok i =>
    rw [issue_of_decode_ok hd] at h
    cases h
    exact issueLegal_frame i s.blk
  | error e =>
    rw [issue_of_decode_error hd] at h
    cases h
    exact ⟨rfl, rfl, rfl, rfl⟩

/-- A clock is the completion, or changes the datapath registers alone (41_reference_datapath.md R130). -/
theorem clock_cases (b : Block) : clock b = complete b ∨ ∃ d, clock b = { b with dp := d } := by
  unfold clock
  split
  · exact .inr ⟨b.dp, rfl⟩
  · exact .inr ⟨_, rfl⟩
  · exact .inr ⟨_, rfl⟩
  · exact .inl rfl

/-! ## The registers that only the host sets: OPA, OPB and IE -/

/-- OPA, OPB and IE are the same in both blocks. -/
def SameHostRegs (b c : Block) : Prop := c.opa = b.opa ∧ c.opb = b.opb ∧ c.ie = b.ie

theorem complete_sameHostRegs (b : Block) : SameHostRegs b (complete b) := by
  unfold SameHostRegs
  cases h : b.busy
  · simp [complete_idle h]
  · simp [complete_busy h]

theorem clock_sameHostRegs (b : Block) : SameHostRegs b (clock b) := by
  obtain h | ⟨d, h⟩ := clock_cases b <;> rw [h]
  · exact complete_sameHostRegs b
  · exact ⟨rfl, rfl, rfl⟩

theorem issueLegal_sameHostRegs (op : Instr) (b : Block) : SameHostRegs b (issueLegal op b) := by
  obtain ⟨ha, hb, -, hie⟩ := issueLegal_frame op b
  exact ⟨ha, hb, hie⟩

/-- The write of `v` to register `r` takes block `b` to `c` by writing one of OPA, OPB and IE, and nothing else. -/
def WritesHostReg (r : Reg) (v : Word) (b c : Block) : Prop :=
  (r = .ctrl ∧ v.getLsbD 1 = false ∧ c = { b with ie := v.getLsbD 0 }) ∨
  (∃ i : Fin 8, r = .opa i ∧ c = { b with opa := b.opa.set i v }) ∨
  (∃ i : Fin 8, r = .opb i ∧ c = { b with opb := b.opb.set i v })

/-- The block after a write that applies `f` to it. -/
theorem blk_of_onBlock_eq {s : State} {f : Block → Block} {c : Block}
    (h : (.next (s.onBlock f) : Host.Outcome State Fault Refusal) = .next { s with blk := c }) : c = f s.blk := by
  cases h
  rfl

/-- A legal write keeps OPA, OPB and IE, or is a soft reset, or writes exactly the one of them that it reaches. -/
theorem writeReg_hostRegs {r : Reg} {v : Word} {s : State} {c : Block} (h : writeReg r v s = .next { s with blk := c }) :
    SameHostRegs s.blk c ∨ atReset c ∨ WritesHostReg r v s.blk c := by
  cases r with
  | id | res =>
    rw [blk_of_onBlock_eq (f := fun b => b) h]
    exact .inl ⟨rfl, rfl, rfl⟩
  | ctrl =>
    rw [blk_of_onBlock_eq h]
    cases hv : v.getLsbD 1
    · exact .inr (.inr (.inl ⟨rfl, hv, writeCtrl_ie hv s.blk⟩))
    · exact .inr (.inl (by rw [writeCtrl_srst hv]; exact atReset_reset))
  | cmd =>
    obtain ⟨ha, hb, -, hie⟩ := issue_frame h
    exact .inl ⟨ha, hb, hie⟩
  | status =>
    rw [blk_of_onBlock_eq h]
    exact .inl ⟨writeStatus_opa v _, writeStatus_opb v _, writeStatus_ie v _⟩
  | opa i => exact .inr (.inr (.inr (.inl ⟨i, rfl, blk_of_onBlock_eq h⟩)))
  | opb i => exact .inr (.inr (.inr (.inr ⟨i, rfl, blk_of_onBlock_eq h⟩)))

/-- A step keeps OPA, OPB and IE, or leaves the reset state, or is a write of the host's next statement that writes
exactly the one of them that it reaches. -/
theorem step_hostRegs {s t : State} (h : step s = .next t) :
    SameHostRegs s.blk t.blk ∨ atReset t.blk ∨
    (t.resp = some .ok ∧ ∃ (st : Stmt) (rest : List Stmt) (x : Txn) (r : Reg),
      s.master.stop = none ∧ s.master.program = st :: rest ∧ stmtTxn s.master.vars st = some x ∧ x.we = true ∧
      target x = some r ∧ WritesHostReg r x.wdata s.blk t.blk) := by
  obtain hb | hb | hb | hb | ⟨st, rest, x, r, s0, hstop, hprog, hx, hwe, ht, hs0, hwrite, hok⟩ := step_block_cases h
  · exact .inl (by rw [hb]; exact ⟨rfl, rfl, rfl⟩)
  · exact .inl (by rw [hb]; exact complete_sameHostRegs s.blk)
  · exact .inl (by rw [hb]; exact clock_sameHostRegs s.blk)
  · exact .inr (.inl (by rw [hb]; exact atReset_reset))
  · rw [← hs0]
    exact (writeReg_hostRegs hwrite).imp_right (.imp_right fun hw =>
      ⟨hok, st, rest, x, r, hstop, hprog, hx, hwe, ht, hw⟩)

/-! ## RES and the latches, over every move of the block -/

/-- A command other than NOP has a result (40_arith_commands.md R107). -/
theorem exists_result_of_ne_nop {i : Instr} (h : i ≠ .nop) (a b : Nat) : ∃ r, result i a b = some r := by
  cases i with
  | nop => exact absurd rfl h
  | mul => exact ⟨_, rfl⟩
  | mulraw => exact ⟨_, rfl⟩
  | red => exact ⟨_, rfl⟩

/-- RES after the completion of a command that has a result. -/
theorem complete_res_of_result {b : Block} {r : Nat} (hb : b.busy = true)
    (hr : result b.opif b.la.toNat b.lb.toNat = some r) : (complete b).res = words 16 r := by
  rw [complete_busy hb, hr, finish_res_some]

/-- A move keeps RES, or resets the block, or completes the command in flight and writes its whole result. -/
theorem BlockMove.res_cases {b c : Block} (m : BlockMove b c) :
    c.res = b.res ∨ atReset c ∨
      (b.busy = true ∧ c.busy = false ∧ c.done = true ∧
        ∃ r, result b.opif b.la.toNat b.lb.toNat = some r ∧ c.res = words 16 r) := by
  cases m with
  | reset => exact .inr (.inl atReset_reset)
  | complete hb =>
    cases hr : result b.opif b.la.toNat b.lb.toNat with
    | none => exact .inl rfl
    | some r => exact .inr (.inr ⟨hb, rfl, rfl, r, rfl, rfl⟩)
  | writeStatus v => exact .inl (writeStatus_res v b)
  | same | writeIe | writeOpa | writeOpb | accept | reject | mult | redc => exact .inl rfl

/-- A move of a busy block keeps the latches and the operation in flight, or resets the block. -/
theorem BlockMove.latches_of_busy {b c : Block} (m : BlockMove b c) (hb : b.busy = true) :
    (c.la = b.la ∧ c.lb = b.lb ∧ c.opif = b.opif) ∨ atReset c := by
  cases m with
  | reset => exact .inr atReset_reset
  | accept op hidle => simp [hidle] at hb
  | writeStatus v => exact .inl ⟨writeStatus_la v b, writeStatus_lb v b, writeStatus_opif v b⟩
  | same | writeIe | writeOpa | writeOpb | reject | complete | mult | redc => exact .inl ⟨rfl, rfl, rfl⟩

/-! ## The statements -/

/-- Settles O29: only a legal write of the host's next statement reaches an operand word, by the write map. -/
theorem operandWordsHoldWhatTheHostWrote : Obligations.OperandWordsHoldWhatTheHostWrote := by
  refine ⟨fun s v i => ⟨transact_write_opa i v s, ?_, transact_write_opb i v s, ?_⟩, fun s t h => ?_, fun b => ?_⟩
  · simp [transact_read_opa]
  · simp [transact_read_opb]
  · obtain ⟨ha, hb, -⟩ | hreset | ⟨hok, st, rest, x, r, hstop, hprog, hx, hwe, ht, hw⟩ := step_hostRegs h
    · exact .inl ⟨ha, hb⟩
    · exact .inr (.inl hreset)
    obtain ⟨-, -, hc⟩ | ⟨i, rfl, hc⟩ | ⟨i, rfl, hc⟩ := hw
    · exact .inl (by simp [hc])
    · exact .inr (.inr ⟨hok, st, rest, x, hstop, hprog, hx, hwe, .inl ⟨i, ht, hc⟩⟩)
    · exact .inr (.inr ⟨hok, st, rest, x, hstop, hprog, hx, hwe, .inr ⟨i, ht, hc⟩⟩)
  · obtain ⟨hca, hcb, -⟩ := complete_sameHostRegs b
    obtain ⟨hka, hkb, -⟩ := clock_sameHostRegs b
    refine ⟨hca, hcb, hka, hkb, fun i => ?_⟩
    obtain ⟨hia, hib, -⟩ := issueLegal_sameHostRegs i b
    exact ⟨hia, hib⟩

/-- Settles O30, by the move that the step makes of the block. -/
theorem resChangesOnlyAtCompletion : Obligations.ResChangesOnlyAtCompletion :=
  ⟨fun s j v => ⟨transact_write_res j v s, transact_read_res j s⟩, fun _ _ h => (step_cases h).1.res_cases⟩

/-- Settles O32: the result of a completion is a function of OPIF, LA and LB, and no move but a reset writes those of a
busy block. -/
theorem latchesDecideTheResult : Obligations.LatchesDecideTheResult := by
  refine ⟨fun i s t hidle h => ?_, fun s t hbusy h => (step_cases h).1.latches_of_busy hbusy, ?_,
    fun b s => ⟨rfl, rfl, rfl, rfl⟩⟩
  · rw [exec_eq_issueLegal] at h
    cases h
    rw [State.onBlock_blk, issueLegal_idle hidle]
    exact ⟨operandA_toNat s.blk, operandB_toNat s.blk⟩
  · intro b c hb hc hop hla hlb hnop
    obtain ⟨r, hr⟩ := exists_result_of_ne_nop hnop b.la.toNat b.lb.toNat
    rw [complete_res_of_result hb hr, complete_res_of_result hc (by rw [hop, hla, hlb, hr])]

/-- Settles O33: only a legal write of the host's next statement that reaches CTRL changes IE, by the write map. -/
theorem ctrlWriteAndRead : Obligations.CtrlWriteAndRead := by
  refine ⟨fun s v => ⟨fun hsrst => ⟨_, transact_write_ctrl v s, rfl, ?_⟩,
    fun hsrst => ⟨_, transact_write_ctrl v s, rfl, writeCtrl_ie hsrst s.blk, ?_⟩⟩, fun s t h => ?_⟩
  · rw [writeCtrl_srst hsrst]
    exact ⟨atReset_reset, rfl⟩
  · exact readReg_ctrl_of_ie (by rw [writeCtrl_ie hsrst])
  · obtain ⟨-, -, hie⟩ | hreset | ⟨hok, st, rest, x, r, hstop, hprog, hx, hwe, ht, hw⟩ := step_hostRegs h
    · exact .inl hie
    · exact .inr (.inl hreset)
    obtain ⟨rfl, hsrst, hc⟩ | ⟨i, -, hc⟩ | ⟨i, -, hc⟩ := hw
    · exact .inr (.inr ⟨hok, st, rest, x, hstop, hprog, hx, hwe, ht, hsrst, hc⟩)
    · exact .inl (by rw [hc])
    · exact .inl (by rw [hc])

/-- Settles O35, by what each operation leaves of IE, DONE and ERR. -/
theorem irqFollowsItsSources : Obligations.IrqFollowsItsSources := by
  refine fun b => ⟨rfl, fun hbusy hie => ?_, fun c hie => ?_, fun v => ?_, fun op hidle => ?_, ?_⟩
  · rw [complete_busy hbusy]
    simp [irq, hie]
  · simp [irq, hie]
  · simp [irq]
  · rw [issueLegal_idle hidle]
    simp [irq]
  · rw [writeCtrl_ie (by decide)]
    simp [irq]

/-- Settles O1: both resets put the block in its reset state. -/
theorem resetStateHasTheTableValues : Obligations.ResetStateHasTheTableValues :=
  ⟨atReset_reset, fun _ => atReset_reset, fun _ => atReset_reset⟩

end Sys2Proof.Machine
end

section
/-! PROOFS. The register window of 20_memory.md: where each register stands, which accesses reach one, what a
transaction is by the offset it names; the bits of CTRL and STATUS; the bytes of the multi-word registers; then the
statements on illegal accesses, reads, writes, reserved bits, byte order and idempotency. -/

namespace Sys2Proof.Machine

open Sys2Proof.Claims

/-! ## The window map: a register and its offset -/

/-- The byte offset of each register in the window (30_encoding.md R71). -/
def offsetOf : Reg → Nat
  | .id => 0x000
  | .ctrl => 0x004
  | .cmd => 0x008
  | .status => 0x00C
  | .opa i => 0x040 + 4 * i.val
  | .opb i => 0x080 + 4 * i.val
  | .res j => 0x0C0 + 4 * j.val

theorem regOf_res (j : Fin 16) : regOf (BitVec.ofNat 8 (0x0C0 + 4 * j.val)) = some (.res j) := by
  revert j; decide

theorem regOf_offsetOf (r : Reg) : regOf (BitVec.ofNat 8 (offsetOf r)) = some r := by
  cases r with
  | id | ctrl | cmd | status => rfl
  | opa i => exact regOf_opa i
  | opb i => exact regOf_opb i
  | res j => exact regOf_res j

theorem regOf_of_toNat {off : BitVec 8} {r : Reg} (h : off.toNat = offsetOf r) : regOf off = some r := by
  rw [← regOf_offsetOf r, ← h, BitVec.ofNat_toNat, BitVec.setWidth_eq]

theorem offsetOf_mod_four (r : Reg) : offsetOf r % 4 = 0 := by
  cases r <;> simp only [offsetOf] <;> omega

/-- The reserved ranges of the window (20_memory.md R56). -/
def reservedOffset (off : BitVec 8) : Prop :=
  (0x010 ≤ off.toNat ∧ off.toNat ≤ 0x03F) ∨ (0x060 ≤ off.toNat ∧ off.toNat ≤ 0x07F) ∨
  (0x0A0 ≤ off.toNat ∧ off.toNat ≤ 0x0BF)

/-- Among the aligned offsets, the reserved ones are those at which no register stands. -/
theorem regOf_eq_none_iff {off : BitVec 8} (h4 : off.toNat % 4 = 0) : regOf off = none ↔ reservedOffset off := by
  have hlt := off.isLt
  unfold regOf reservedOffset
  split_ifs <;> simp only [true_iff, false_iff] <;> omega

/-! ## Legal and illegal accesses -/

theorem fullWordAccess_iff (off : BitVec 8) (be : BitVec 4) :
    fullWordAccess off be = true ↔ off.toNat % 4 = 0 ∧ be = 0b1111 := by
  simp [fullWordAccess, ← BitVec.toNat_inj]

theorem illegalAccess_iff (t : Txn) :
    illegalAccess t ↔ ¬ fullWordAccess t.addr t.be = true ∨ reservedOffset t.addr := by
  rw [fullWordAccess_iff, not_and_or, or_assoc]
  rfl

/-- The illegal accesses are those that reach no register (20_memory.md R55, R56). -/
theorem illegalAccess_iff_target_eq_none (t : Txn) : illegalAccess t ↔ target t = none := by
  rw [illegalAccess_iff, target]
  split
  · next hfull =>
    rw [regOf_eq_none_iff ((fullWordAccess_iff _ _).mp hfull).1]
    exact or_iff_right (not_not_intro hfull)
  · next hfull => exact iff_of_true (.inl hfull) rfl

theorem target_of_legal {t : Txn} (hl : ¬ illegalAccess t) : ∃ r, target t = some r :=
  Option.ne_none_iff_exists'.mp (mt (illegalAccess_iff_target_eq_none t).mpr hl)

/-- An access of full width at a register's offset reaches that register. -/
theorem target_of_toNat {t : Txn} {r : Reg} (hbe : t.be = 0b1111) (h : t.addr.toNat = offsetOf r) :
    target t = some r := by
  have hfull : fullWordAccess t.addr t.be = true :=
    (fullWordAccess_iff _ _).mpr ⟨by rw [h, offsetOf_mod_four], hbe⟩
  rw [target, if_pos hfull, regOf_of_toNat h]

/-- A legal access reaches the register that stands at its offset. -/
theorem target_of_legal_of_toNat {t : Txn} {r : Reg} (hl : ¬ illegalAccess t) (h : t.addr.toNat = offsetOf r) :
    target t = some r :=
  target_of_toNat (by_contra fun hbe => hl (.inr (.inl hbe))) h

/-! ## Transactions -/

/-- An illegal access is answered BUSERR and changes nothing else (20_memory.md R55). -/
theorem transact_illegal {t : Txn} (h : illegalAccess t) (s : State) :
    transact t s = .next { s with resp := some .busErr } := by
  simp [transact, (illegalAccess_iff_target_eq_none t).mp h, State.respond]

/-- A legal access is answered, and not with BUSERR. -/
theorem transact_legal_resp {t : Txn} (hl : ¬ illegalAccess t) {s u : State} (h : transact t s = .next u) :
    ∃ r, u.resp = some r ∧ r ≠ .busErr := by
  obtain ⟨g, hg⟩ := target_of_legal hl
  obtain ⟨b, r, ht, -, -, hread, hwrite⟩ := transact_spec t s
  rw [ht] at h
  cases h
  cases hw : t.we
  · obtain ⟨-, rfl⟩ := hread g hg hw
    exact ⟨_, rfl, nofun⟩
  · obtain rfl := hwrite g hg hw
    exact ⟨_, rfl, nofun⟩

/-- A read, legal or not, changes nothing but the response, which depends on the block alone (20_memory.md R53). -/
theorem transact_read_frame {t : Txn} (hw : t.we = false) (s : State) :
    ∃ r, ∀ o : Option Resp, transact t { s with resp := o } = .next { s with resp := some r } := by
  by_cases hl : illegalAccess t
  · exact ⟨.busErr, fun o => transact_illegal hl _⟩
  · obtain ⟨g, hg⟩ := target_of_legal hl
    exact ⟨.data (readReg s.blk g), fun o => transact_read hg hw _⟩

theorem transact_write_id (v : Word) (s : State) :
    transact (writeTxn 0x000 v) s = .next { s with resp := some .ok } :=
  transact_write (target_of_toNat (r := .id) rfl rfl) rfl s

theorem transact_write_status (v : Word) (s : State) :
    transact (writeTxn 0x00C v) s = .next { s with blk := writeStatus v s.blk, resp := some .ok } :=
  transact_write (target_of_toNat (r := .status) rfl rfl) rfl s

/-- A CMD write of a command's word is the issue of that command, answered OK. -/
theorem transact_write_encode (i : Instr) (s : State) :
    transact (writeTxn 0x008 (encode i)) s = .next { s with blk := issueLegal i s.blk, resp := some .ok } := by
  have hd : decode (encode i) = .ok i := by cases i <;> rfl
  rw [transact_cmd, issue_of_decode_ok hd]
  rfl

/-! ## The bits of CTRL and STATUS -/

theorem ctrlWord_toNat (b : Block) : (ctrlWord b).toNat = b.ie.toNat := by
  cases h : b.ie <;> simp [ctrlWord, flagBit, h]

/-- The fields of STATUS at their bit positions (20_memory.md R53). -/
theorem statusWord_toNat (b : Block) : (statusWord b).toNat =
    b.busy.toNat + 2 * b.done.toNat + 4 * b.err.toNat + 16 * b.ecode.toNat := by
  have fields : ∀ (e : BitVec 4) (err done busy : Bool),
      ((e ++ (0#1) ++ flagBit err ++ flagBit done ++ flagBit busy).setWidth 32).toNat =
        busy.toNat + 2 * done.toNat + 4 * err.toNat + 16 * e.toNat := by decide
  exact fields b.ecode b.err b.done b.busy

theorem ctrlWord_reserved (b : Block) : ctrlWord b &&& 0xFFFFFFFE = 0 := by
  cases h : b.ie <;> simp [ctrlWord, flagBit, h]

theorem statusWord_reserved (b : Block) : statusWord b &&& 0xFFFFFF08 = 0 := by
  have fields : ∀ (e : BitVec 4) (err done busy : Bool),
      (e ++ (0#1) ++ flagBit err ++ flagBit done ++ flagBit busy).setWidth 32 &&& 0xFFFFFF08#32 = 0 := by decide
  exact fields b.ecode b.err b.done b.busy

/-- A CTRL write uses bits 0 and 1 of its datum only (20_memory.md R57). -/
theorem writeCtrl_congr {v w : Word} (h0 : v.getLsbD 0 = w.getLsbD 0) (h1 : v.getLsbD 1 = w.getLsbD 1) :
    writeCtrl v = writeCtrl w := by
  funext b
  rw [writeCtrl, writeCtrl, h0, h1]

/-- A STATUS write uses bits 1 and 2 of its datum only (20_memory.md R57). -/
theorem writeStatus_congr {v w : Word} (h1 : v.getLsbD 1 = w.getLsbD 1) (h2 : v.getLsbD 2 = w.getLsbD 2) :
    writeStatus v = writeStatus w := by
  funext b
  rw [writeStatus, writeStatus, clearDone, clearDone, clearErr, clearErr, h1, h2]

/-- The effect of a STATUS write, as one update (20_memory.md R54). -/
theorem writeStatus_eq (v : Word) (b : Block) : writeStatus v b = { b with
    done := if v.getLsbD 1 then false else b.done
    err := if v.getLsbD 2 then false else b.err
    ecode := if v.getLsbD 2 then 0 else b.ecode } := by
  unfold writeStatus clearErr clearDone
  cases v.getLsbD 1 <;> cases v.getLsbD 2 <;> rfl

theorem writeStatus_idem (v : Word) (b : Block) : writeStatus v (writeStatus v b) = writeStatus v b := by
  rw [writeStatus_eq v (writeStatus v b), writeStatus_eq v b]
  cases v.getLsbD 1 <;> cases v.getLsbD 2 <;> rfl

/-! ## Words and bytes of a multi-word register -/

theorem laneByte_toNat (w : Word) (k : Nat) : (laneByte w k).toNat = slice w.toNat (8 * k + 7) (8 * k) := by
  rw [laneByte, BitVec.extractLsb'_toNat, slice, show 8 * k + 7 + 1 - 8 * k = 8 by omega]

/-- Word i of a register array as bits of its value (20_memory.md R58 (b)). -/
theorem getElem_eq_ofNat_val {n : Nat} (X : Vector Word n) (i : Nat) (h : i < n) :
    X[i] = BitVec.ofNat 32 (val X / 2 ^ (32 * i)) := by
  rw [← words_getElem n (val X) i h, words_val]

theorem getElem_toNat_eq_slice {n : Nat} (X : Vector Word n) (i : Fin n) :
    X[i].toNat = slice (val X) (32 * i.val + 31) (32 * i.val) := by
  rw [Fin.getElem_fin, getElem_eq_ofNat_val X i i.isLt, BitVec.toNat_ofNat, slice, Nat.shiftRight_eq_div_pow,
    show 32 * i.val + 31 + 1 - 32 * i.val = 32 by omega]

/-- Lane `k` of a word that holds the low bits of `v`. -/
theorem laneByte_ofNat (v : Nat) {k : Nat} (hk : k < 4) :
    laneByte (BitVec.ofNat 32 v) k = BitVec.ofNat 8 (v / 2 ^ (8 * k)) := by
  apply BitVec.eq_of_toNat_eq
  have hsplit : 2 ^ 32 = 2 ^ (8 * k) * 2 ^ (32 - 8 * k) := by rw [← Nat.pow_add]; congr 1; omega
  rw [laneByte, BitVec.extractLsb'_toNat, BitVec.toNat_ofNat, BitVec.toNat_ofNat, Nat.shiftRight_eq_div_pow, hsplit,
    Nat.mod_mul_right_div_self, Nat.mod_mod_of_dvd _ (Nat.pow_dvd_pow 2 (by omega))]

/-- Byte `k` of a register array as bits of its value (20_memory.md R58 (c)). -/
theorem laneByte_getElem {n : Nat} (X : Vector Word n) (k : Nat) (h : k / 4 < n) :
    laneByte X[k / 4] (k % 4) = BitVec.ofNat 8 (val X / 2 ^ (8 * k)) := by
  rw [getElem_eq_ofNat_val X (k / 4) h, laneByte_ofNat _ (Nat.mod_lt k (by decide)), Nat.div_div_eq_div_mul,
    ← Nat.pow_add, show 32 * (k / 4) + 8 * (k % 4) = 8 * k by omega]

/-- Masking with 0xFC rounds an offset down to its word. -/
theorem and_0xFC_toNat (off : BitVec 8) : (off &&& 0xFC).toNat = off.toNat - off.toNat % 4 := by
  revert off; decide

/-- The four bytes from a register's offset on are the lanes of its word (20_memory.md R58 (a)). -/
theorem windowByte_of_reg (b : Block) (r : Reg) {off : BitVec 8} {k : Nat} (hk : k < 4)
    (h : off.toNat = offsetOf r + k) : windowByte b off = some (laneByte (readReg b r) k) := by
  have h4 := offsetOf_mod_four r
  have hlane : off.toNat % 4 = k := by omega
  have hword : (off &&& 0xFC).toNat = offsetOf r := by rw [and_0xFC_toNat]; omega
  rw [windowByte, regOf_of_toNat hword, hlane, Option.map_some]

/-- The bytes of a register array, at increasing offsets from its first word on, are the bytes of its value, least
significant first (20_memory.md R58 (c)). -/
theorem windowByte_array (b : Block) {n : Nat} (X : Vector Word n) (reg : Fin n → Reg) (base : Nat)
    (hoff : ∀ i, offsetOf (reg i) = base + 4 * i.val) (hread : ∀ i, readReg b (reg i) = X[i])
    (hfit : base + 4 * n ≤ 256) (k : Nat) (hk : k < 4 * n) :
    windowByte b (BitVec.ofNat 8 (base + k)) = some (BitVec.ofNat 8 (val X / 2 ^ (8 * k))) := by
  have hword : k / 4 < n := by omega
  have haddr : (BitVec.ofNat 8 (base + k)).toNat = offsetOf (reg ⟨k / 4, hword⟩) + k % 4 := by
    rw [BitVec.toNat_ofNat, hoff]
    dsimp only
    omega
  rw [windowByte_of_reg b _ (Nat.mod_lt k (by decide)) haddr, hread]
  exact congrArg some (laneByte_getElem X k hword)

/-! ## The statements -/

/-- Settles O25: the illegal accesses are those that reach no register, and the response decides ack and err. -/
theorem illegalAccessHasNoEffect : Obligations.IllegalAccessHasNoEffect := by
  refine fun t s => ⟨illegalAccess_iff_target_eq_none t,
    fun h => ⟨_, transact_illegal h s, rfl, rfl, rfl, rfl⟩, fun hl u hu => ?_⟩
  obtain ⟨r, hr, hne⟩ := transact_legal_resp hl hu
  simp [State.ack, State.errPort, hr, hne]

/-- Settles O26: a legal read answers the register at its offset. -/
theorem readsReturnTheRegisters : Obligations.ReadsReturnTheRegisters := by
  refine fun t s hw => ⟨fun h => transact_illegal h s, fun hl => ?_⟩
  obtain ⟨r, hr⟩ := target_of_legal hl
  have at_offset : ∀ g : Reg, t.addr.toNat = offsetOf g → readReg s.blk r = readReg s.blk g := fun g hg => by
    rw [Option.some.inj (hr.symm.trans (target_of_legal_of_toNat hl hg))]
  refine ⟨readReg s.blk r, transact_read hr hw s, at_offset .id, fun h => ?_, at_offset .cmd, fun h => ?_,
    fun i => at_offset (.opa i), fun i => at_offset (.opb i), fun j => at_offset (.res j)⟩
  · rw [at_offset .ctrl h]
    exact ctrlWord_toNat s.blk
  · rw [at_offset .status h]
    exact statusWord_toNat s.blk

/-- Settles O27: a legal write does what the write of the register at its offset does. -/
theorem writesFollowTheMap : Obligations.WritesFollowTheMap := by
  refine fun t s hw => ⟨fun h => transact_illegal h s, fun hl => ?_⟩
  have at_offset : ∀ g : Reg, t.addr.toNat = offsetOf g →
      transact t s = mapNext (State.respond .ok) (writeReg g t.wdata s) :=
    fun g hg => transact_write (target_of_legal_of_toNat hl hg) hw s
  refine ⟨at_offset .id, fun h hsrst => ?_, fun h hie => ?_, at_offset .cmd, fun h => ?_,
    fun i => at_offset (.opa i), fun i => at_offset (.opb i), fun j => at_offset (.res j)⟩
  · rw [at_offset .ctrl h, softReset, ← writeCtrl_srst hsrst s.blk]
    rfl
  · rw [at_offset .ctrl h, ← writeCtrl_ie hie s.blk]
    rfl
  · rw [at_offset .status h, ← writeStatus_eq]
    rfl

/-- Settles O28: a write of CTRL or STATUS is a function of its two bits, and only the fields are read. -/
theorem readOnlyAndReservedBits : Obligations.ReadOnlyAndReservedBits := by
  refine ⟨fun s v => ⟨transact_write_id v s, fun j => transact_write_res j v s, ?_, ?_⟩,
    fun b => ⟨ctrlWord_reserved b, statusWord_reserved b⟩⟩
  · rw [transact_write_ctrl, transact_write_ctrl, writeCtrl_congr (w := v &&& 0x00000003) (by simp) (by simp)]
  · rw [transact_write_status, transact_write_status, writeStatus_congr (w := v &&& 0x00000006) (by simp) (by simp)]

/-- Settles O36: a register array is the words of its value, and its byte k is lane k mod 4 of its word k / 4. -/
theorem byteOrderIsLittleEndian : Obligations.ByteOrderIsLittleEndian := by
  refine ⟨fun w k => laneByte_toNat w k,
    fun b i => ⟨getElem_toNat_eq_slice b.opa i, regOf_opa i, getElem_toNat_eq_slice b.opb i, regOf_opb i⟩,
    fun b j => ⟨getElem_toNat_eq_slice b.res j, regOf_res j⟩, fun b k => ⟨?_, ?_⟩, fun b k => ?_⟩
  · exact windowByte_array b b.opa .opa 0x040 (fun _ => rfl) (fun _ => rfl) (by decide) k k.isLt
  · exact windowByte_array b b.opb .opb 0x080 (fun _ => rfl) (fun _ => rfl) (by decide) k k.isLt
  · exact windowByte_array b b.res .res 0x0C0 (fun _ => rfl) (fun _ => rfl) (by decide) k k.isLt

/-- Settles O37: each write is applied twice, and the second CMD write finds the block busy. -/
theorem idempotencyOfAccesses : Obligations.IdempotencyOfAccesses := by
  unfold Obligations.IdempotencyOfAccesses
  intro twice
  have twice_eq : ∀ {t : Txn} {s u : State}, transact t s = .next u → twice t s = transact t u := by
    intro t s u h
    simp only [twice, h]
  refine ⟨fun t s hw => ?_, fun s v i => ⟨?_, ?_⟩, fun s v => ?_, fun s v hsrst => ?_, fun s i hidle => ?_⟩
  · obtain ⟨r, hr⟩ := transact_read_frame hw s
    rw [twice_eq (hr s.resp), hr (some r), hr s.resp]
    refine ⟨rfl, fun u hu => ?_⟩
    cases hu
    rfl
  · rw [twice_eq (transact_write_opa i v s), transact_write_opa, transact_write_opa]
    simp
  · rw [twice_eq (transact_write_opb i v s), transact_write_opb, transact_write_opb]
    simp
  · rw [twice_eq (transact_write_status v s), transact_write_status, transact_write_status, writeStatus_idem]
  · refine ⟨_, _, transact_write_ctrl v s, (twice_eq (transact_write_ctrl v s)).trans (transact_write_ctrl v _), ?_⟩
    rw [writeCtrl_srst hsrst, writeCtrl_srst hsrst]
    exact ⟨atReset_reset, atReset_reset⟩
  · refine ⟨_, _, transact_write_encode i s, (twice_eq (transact_write_encode i s)).trans (transact_write_encode i _), ?_⟩
    rw [issueLegal_idle hidle, issueLegal_busy (accept_busy i (encode i) s.blk)]
    exact ⟨rfl, rfl, rfl⟩

end Sys2Proof.Machine
end

section
/-! PROOFS. The decoding of command words, 30_encoding.md R72 to R76: `encode` is its inverse, and what is no
command's word is ILLEGAL. -/

namespace Sys2Proof.Machine

/-- A word is its two fields (30_encoding.md R72). -/
theorem rsvField_append_opField (v : Word) : rsvField v ++ opField v = v := by
  rw [rsvField, opField, BitVec.extractLsb'_append_extractLsb']

theorem decode_encode (i : Instr) : decode (encode i) = .ok i := by
  cases i <;> rfl

/-- A word that decodes has RSV = 0, and the command fixes its OP. -/
theorem eq_encode_of_decode {v : Word} {i : Instr} (h : decode v = .ok i) : v = encode i := by
  unfold decode at h
  split at h
  next => cases h
  next hrsv =>
    have hv : v = 0#28 ++ opField v := by
      calc v = rsvField v ++ opField v := (rsvField_append_opField v).symm
        _ = 0#28 ++ opField v := by rw [not_not.mp hrsv]; rfl
    split_ifs at h with h0 h1 h2 h3 <;> cases h
    · rw [hv, h0]; rfl
    · rw [hv, h1]; rfl
    · rw [hv, h2]; rfl
    · rw [hv, h3]; rfl

theorem decode_eq_ok_iff {v : Word} {i : Instr} : decode v = .ok i ↔ v = encode i :=
  ⟨eq_encode_of_decode, fun h => h ▸ decode_encode i⟩

/-- `decode` answers ILLEGAL exactly where it answers no command. -/
theorem decode_eq_error_iff {v : Word} : (∃ e, decode v = .error e) ↔ ∀ i, v ≠ encode i := by
  simp only [ne_eq, ← decode_eq_ok_iff]
  cases decode v <;> simp

/-- The words of 30_encoding.md R73, one for each command. -/
theorem forall_ne_encode_iff (v : Word) : (∀ i, v ≠ encode i) ↔ v ≠ 0x0 ∧ v ≠ 0x1 ∧ v ≠ 0x2 ∧ v ≠ 0x3 := by
  refine ⟨fun h => ⟨h .nop, h .mul, h .mulraw, h .red⟩, fun ⟨h0, h1, h2, h3⟩ i => ?_⟩
  cases i with
  | nop => exact h0
  | mul => exact h1
  | mulraw => exact h2
  | red => exact h3

/-- The issue of a legal word in an idle block accepts its command with the word written (40_arith_commands.md R101). -/
theorem issue_idle {v : Word} {i : Instr} {s : State} (h : decode v = .ok i) (hidle : s.blk.busy = false) :
    issue v s = .next { s with blk := accept i v s.blk } := by
  rw [issue_of_decode_ok h, State.onBlock, issueLegal_idle hidle, ← eq_encode_of_decode h]

theorem issue_busy {v : Word} {i : Instr} {s : State} (h : decode v = .ok i) (hbusy : s.blk.busy = true) :
    issue v s = .next { s with blk := reject .cmdWhileBusy s.blk } := by
  rw [issue_of_decode_ok h, State.onBlock, issueLegal_busy hbusy]

/-- Settles O6: decoding is the inverse of `encode`, and the issue follows it and BUSY. -/
theorem decodeIsTotalAndIssueFollows : Obligations.DecodeIsTotalAndIssueFollows :=
  fun v => ⟨fun _ => decode_eq_ok_iff, decode_eq_error_iff.trans (forall_ne_encode_iff v),
    fun _ _ => issue_idle, fun _ _ => issue_busy, fun _ s h => issue_of_decode_error h s⟩

end Sys2Proof.Machine
end

section
/-! PROOFS. The commands of 40_arith_commands.md: the words of a value and of its halves, the values of the result
function, the acceptance of a command and its completion in a later block; then the statements. -/

namespace Sys2Proof.Machine

open Sys2Proof.Claims

/-! ## The words of a value and of its halves -/

theorem val_words_eq_mod (n v : Nat) : val (words n v) = v % 2 ^ (32 * n) := by
  rw [val, words_toList, valWords_words]

/-- The value of the low `m` words of `v`. -/
theorem valWords_take_words {m n : Nat} (h : m ≤ n) (v : Nat) :
    valWords ((words n v).toList.take m) = v % 2 ^ (32 * m) := by
  rw [words_toList, ← List.map_take, List.take_range, Nat.min_eq_left h, valWords_words]

/-- A word above the bits of a value is 0. -/
theorem words_getElem_eq_zero {n v k i : Nat} (hv : v < 2 ^ (32 * k)) (hk : k ≤ i) (hi : i < n) :
    (words n v)[i] = 0 := by
  rw [words_getElem, Nat.div_eq_of_lt (hv.trans_le (Nat.pow_le_pow_right (by decide) (by omega)))]
  rfl

/-- The words from `k` on are the words of the value without its low `k` words. -/
theorem words_getElem_add {n m v k i : Nat} (hi : i < m) (hik : i + k < n) :
    (words n v)[i + k] = (words m (v / 2 ^ (32 * k)))[i] := by
  rw [words_getElem, words_getElem, Nat.div_div_eq_div_mul, ← Nat.pow_add, show 32 * k + 32 * i = 32 * (i + k) by omega]

theorem lowHalfIs_words {c : Nat} (h : c < 2 ^ 256) : lowHalfIs c (words 16 c) := by
  refine ⟨val_words 16 c (h.trans (Nat.pow_lt_pow_right (by decide) (by decide))), fun j => ?_, fun j hj => ?_⟩
  · rw [Fin.getElem_fin, words_getElem, words_getElem]
  · exact words_getElem_eq_zero (k := 8) h hj j.isLt

/-! ## The result function (40_arith_commands.md R107) -/

theorem modulus_eq : Config.p = 2 ^ 255 - 19 := by decide

theorem modulus_pos : 0 < Config.p := by decide

theorem modulus_lt : Config.p < 2 ^ 256 := by decide

theorem resultMul_lt_p (a b : Nat) : resultMul a b < Config.p := Nat.mod_lt _ modulus_pos

theorem resultRed_lt_p (a b : Nat) : resultRed a b < Config.p := Nat.mod_lt _ modulus_pos

/-- MULRAW cannot overflow RES (R105). -/
theorem resultMulraw_lt {a b : Nat} (ha : a < 2 ^ 256) (hb : b < 2 ^ 256) : resultMulraw a b < 2 ^ 512 :=
  calc a * b < 2 ^ 256 * 2 ^ 256 := Nat.mul_lt_mul'' ha hb
    _ = 2 ^ 512 := (Nat.pow_add 2 256 256).symm

/-- MUL and RED write a canonical residue (R112). -/
theorem exists_result_lt_p {i : Instr} (h : i = .mul ∨ i = .red) (a b : Nat) :
    ∃ r, result i a b = some r ∧ r < Config.p := by
  obtain rfl | rfl := h
  · exact ⟨_, rfl, resultMul_lt_p a b⟩
  · exact ⟨_, rfl, resultRed_lt_p a b⟩

/-- Every result fits RES. -/
theorem result_lt {i : Instr} {a b r : Nat} (ha : a < 2 ^ 256) (hb : b < 2 ^ 256) (hr : result i a b = some r) :
    r < 2 ^ 512 := by
  have residue_fits : Config.p < 2 ^ 512 := modulus_lt.trans (Nat.pow_lt_pow_right (by decide) (by decide))
  cases i with
  | nop => cases hr
  | mul => cases hr; exact (resultMul_lt_p a b).trans residue_fits
  | mulraw => cases hr; exact resultMulraw_lt ha hb
  | red => cases hr; exact (resultRed_lt_p a b).trans residue_fits

/-- RED of the two halves of a number is its residue. -/
theorem resultRed_halves (t : Nat) : resultRed (t % 2 ^ 256) (t / 2 ^ 256) = t % Config.p := by
  rw [resultRed, Nat.div_add_mod']

/-- The composition law of R104. -/
theorem resultRed_resultMulraw (a b : Nat) :
    resultRed (resultMulraw a b % 2 ^ 256) (resultMulraw a b / 2 ^ 256) = resultMul a b :=
  resultRed_halves (a * b)

theorem resultMul_eq_zero_of_eq_zero {a b : Nat} (h : a = 0 ∨ b = 0) : resultMul a b = 0 := by
  rw [resultMul, Nat.mul_eq_zero.mpr h, Nat.zero_mod]

theorem resultMul_one (b : Nat) : resultMul 1 b = b % Config.p := by
  rw [resultMul, Nat.one_mul]

theorem resultMul_p (b : Nat) : resultMul Config.p b = 0 := Nat.mul_mod_right Config.p b

theorem resultMul_p_add_one (b : Nat) : resultMul (Config.p + 1) b = b % Config.p := by
  rw [resultMul, Nat.add_mul, Nat.one_mul, Nat.mul_add_mod]

theorem resultMul_eq_zero_iff (a b : Nat) : resultMul a b = 0 ↔ Config.p ∣ a * b :=
  (Nat.dvd_iff_mod_eq_zero).symm

theorem resultRed_of_lt {a : Nat} (h : a < Config.p) : resultRed a 0 = a := by
  rw [resultRed, Nat.zero_mul, Nat.zero_add, Nat.mod_eq_of_lt h]

/-! ## Acceptance (40_arith_commands.md R101) -/

/-- The phase that acceptance enters (R101). -/
def entryPhase : Instr → Phase
  | .nop => .fin
  | .mul => .mult
  | .mulraw => .mult
  | .red => .redc

@[simp] theorem datapathEnter_phase (i : Instr) (la lb : Operand) (d : Datapath) :
    (datapathEnter i la lb d).phase = entryPhase i := by
  cases i <;> rfl

/-- A command's CMD write in an idle block accepts it, and in a busy block rejects it. -/
theorem issuesAs_entryPhase (i : Instr) : issuesAs i (entryPhase i) := by
  refine ⟨fun s hidle => ⟨_, exec_eq_issueLegal i s, ?_⟩, fun s hbusy => ?_⟩
  · rw [State.onBlock, issueLegal_idle hidle]
    exact ⟨rfl, rfl, rfl, operandA_toNat s.blk, operandB_toNat s.blk, rfl, rfl, rfl, rfl,
      datapathEnter_phase i _ _ _, rfl, rfl, rfl, rfl, rfl, rfl⟩
  · rw [exec_eq_issueLegal, State.onBlock, issueLegal_busy hbusy]
    rfl

/-! ## Completion (40_arith_commands.md R108, R109) -/

/-- A block that has command `i` in flight, with the latches of its issue in the idle block `b`, completes it on the
operands that `b` held. -/
theorem complete_of_issued {i : Instr} {b u : Block} (hidle : b.busy = false) (hbusy : u.busy = true)
    (hop : u.opif = (issueLegal i b).opif) (hla : u.la = (issueLegal i b).la) (hlb : u.lb = (issueLegal i b).lb) :
    complete u = finish (result i (val b.opa) (val b.opb)) u := by
  rw [complete_busy hbusy, hop, hla, hlb, issueLegal_idle hidle, accept_opif, accept_la, accept_lb, operandA_toNat,
    operandB_toNat]

/-- A command completes as `R` says if `R` holds of every block that `finish` gives its result. -/
theorem completesAs_of_finish {i : Instr} {R : Nat → Nat → Vector Word 16 → Vector Word 16 → Prop}
    (h : ∀ (a b : Nat) (u : Block), a < 2 ^ 256 → b < 2 ^ 256 → R a b u.res (finish (result i a b) u).res) :
    completesAs i R := by
  refine fun s hidle => ⟨_, exec_eq_issueLegal i s, fun u hbusy hop hla hlb => ?_⟩
  rw [complete_of_issued hidle hbusy hop hla hlb]
  exact ⟨h _ _ u (val_lt s.blk.opa) (val_lt s.blk.opb), rfl⟩

/-- RES after a command is issued in an idle block and completes. -/
theorem complete_issueLegal_res {i : Instr} {b : Block} {r : Nat} (hidle : b.busy = false)
    (hr : result i (val b.opa) (val b.opb) = some r) : (complete (issueLegal i b)).res = words 16 r := by
  have hbusy : (issueLegal i b).busy = true := by rw [issueLegal_idle hidle, accept_busy]
  rw [complete_of_issued hidle hbusy rfl rfl rfl, hr, finish_res_some]

/-! ## The statements -/

/-- Settles O8: a word that decodes is accepted by an idle block, and what is left is the two causes of rejection. -/
theorem acceptanceEffects : Obligations.AcceptanceEffects := by
  refine fun v s => ⟨fun i hd hidle => ⟨_, issue_idle hd hidle, operandA_toNat s.blk, operandB_toNat s.blk, rfl, rfl,
    rfl, rfl, ?_, rfl, rfl, ⟨rfl, rfl, rfl, rfl⟩, rfl⟩, fun hnot => ?_⟩
  · rw [accept_dp, datapathEnter_phase]
    cases i <;> rfl
  · cases hd : decode v with
    | error e => exact ⟨.illegalCmd, issue_of_decode_error hd s⟩
    | ok i => exact ⟨.cmdWhileBusy, issue_busy hd (Bool.eq_true_of_not_eq_false fun hidle => hnot ⟨i, hd, hidle⟩)⟩

/-- Settles O13: NOP has no result, so its completion leaves RES. -/
theorem nopRuns : Obligations.NopRuns :=
  ⟨rfl, decode_encode .nop, issuesAs_entryPhase .nop, completesAs_of_finish fun _ _ u _ _ => finish_res_none u⟩

/-- Settles O14: the result is below p, so it fits the low half of RES. -/
theorem mulRuns : Obligations.MulRuns := by
  refine ⟨rfl, decode_encode .mul, issuesAs_entryPhase .mul, completesAs_of_finish fun a b u _ _ => ?_,
    fun a b => resultMul_eq_zero_of_eq_zero, fun b => ⟨resultMul_one b, resultMul_p b, resultMul_p_add_one b⟩,
    by decide, by decide, by decide, fun a b => ⟨(resultMul_lt_p a b).ne, resultMul_eq_zero_iff a b⟩⟩
  rw [← modulus_eq]
  exact lowHalfIs_words ((resultMul_lt_p a b).trans modulus_lt)

/-- Settles O15: the product of two operands fits RES. -/
theorem mulrawRuns : Obligations.MulrawRuns := by
  refine ⟨rfl, decode_encode .mulraw, issuesAs_entryPhase .mulraw,
    completesAs_of_finish fun a b u ha hb => ⟨val_words 16 _ (resultMulraw_lt ha hb), ?_,
      fun j => words_getElem 16 (a * b) j j.isLt⟩,
    fun a b => Nat.mul_eq_zero.mpr, by decide, resultRed_resultMulraw, rfl⟩
  rw [Nat.pow_two]
  exact Nat.mul_le_mul (Nat.le_sub_one_of_lt ha) (Nat.le_sub_one_of_lt hb)

/-- Settles O16: the result is below p, so it fits the low half of RES. -/
theorem redRuns : Obligations.RedRuns := by
  refine ⟨rfl, decode_encode .red, issuesAs_entryPhase .red, completesAs_of_finish fun a b u _ _ => ?_,
    fun a => resultRed_of_lt, by decide, by decide, ?_, by decide, by decide, by decide, by decide⟩
  · rw [← modulus_eq]
    exact lowHalfIs_words ((resultRed_lt_p a b).trans modulus_lt)
  · rw [resultRed_halves]
    exact Nat.mod_eq_zero_of_dvd (Dvd.intro_left Config.p (Nat.pow_two Config.p).symm)

/-- Settles O19: completion finishes with the result of the operation in flight, which fits RES. -/
theorem completionEffects : Obligations.CompletionEffects := by
  refine fun b hbusy => ⟨?_, resultMulraw_lt b.la.isLt b.lb.isLt, fun r hr => ?_⟩
  · rw [complete_busy hbusy]
    unfold finish
    generalize b.opif = i
    cases i <;> rfl
  · rw [complete_res_of_result hbusy hr, val_words 16 r (result_lt b.la.isLt b.lb.isLt hr)]

/-- Settles O22: a residue below p has no bits in the upper half of RES, and MULRAW's product fits RES. -/
theorem outputsAreCanonical : Obligations.OutputsAreCanonical := by
  refine fun b hbusy => ⟨fun hop => ?_, fun hop => ?_⟩
  · obtain ⟨r, hr, hrp⟩ := exists_result_lt_p hop b.la.toNat b.lb.toNat
    have hr256 : r < 2 ^ (32 * 8) := hrp.trans modulus_lt
    rw [complete_res_of_result hbusy hr, valWords_take_words (by decide), Nat.mod_eq_of_lt hr256, ← modulus_eq]
    exact ⟨hrp, fun j hj => words_getElem_eq_zero hr256 hj j.isLt⟩
  · have hr : result b.opif b.la.toNat b.lb.toNat = some (resultMulraw b.la.toNat b.lb.toNat) := by rw [hop]; rfl
    rw [complete_res_of_result hbusy hr, val_words 16 _ (resultMulraw_lt b.la.isLt b.lb.isLt), resultMulraw]

/-- Settles O23: OPA and OPB of the second block are the two halves of MULRAW's product. -/
theorem mulIsMulrawThenRed : Obligations.MulIsMulrawThenRed := by
  refine ⟨fun a b _ _ => ?_, fun b c hb hc hopa hopb => ?_⟩
  · rw [Nat.shiftRight_eq_div_pow, resultRed_resultMulraw]
  · rw [complete_issueLegal_res hb rfl] at hopa hopb
    have opa_eq : c.opa = words 8 (resultMulraw (val b.opa) (val b.opb)) :=
      Vector.ext fun i hi => (hopa ⟨i, hi⟩).trans (by rw [words_getElem, words_getElem])
    have opb_eq : c.opb = words 8 (resultMulraw (val b.opa) (val b.opb) / 2 ^ 256) :=
      Vector.ext fun i hi => (hopb ⟨i, hi⟩).trans (words_getElem_add (k := 8) hi (by omega))
    have upper_lt : resultMulraw (val b.opa) (val b.opb) / 2 ^ 256 < 2 ^ 256 :=
      Nat.div_lt_of_lt_mul ((resultMulraw_lt (val_lt b.opa) (val_lt b.opb)).trans_eq (Nat.pow_add 2 256 256))
    rw [complete_issueLegal_res hc rfl, complete_issueLegal_res hb rfl, opa_eq, opb_eq, val_words_eq_mod,
      val_words 8 _ upper_lt, resultRed_resultMulraw]

end Sys2Proof.Machine
end

section
/-! PROOFS. The reference datapath of 41_reference_datapath.md: the scan of R131, by the highest words that agree and
the first that differ; then the statement. -/

namespace Sys2Proof.Machine

/-! ## The value of a list of words by its highest word -/

theorem valWords_concat (ws : List Word) (w : Word) :
    valWords (ws ++ [w]) = valWords ws + 2 ^ (32 * ws.length) * w.toNat := by
  induction ws with
  | nil => simp [valWords]
  | cons v vs ih =>
    rw [List.cons_append, valWords, ih, valWords, List.length_cons, Nat.mul_succ, Nat.add_comm (32 * _) 32, Nat.pow_add]
    ring

/-- Of two values of the same width, the one with the greater highest word is the greater. -/
theorem valWords_concat_lt {xs ys : List Word} {x y : Word} (hlen : xs.length = ys.length) (h : y.toNat < x.toNat) :
    valWords (ys ++ [y]) < valWords (xs ++ [x]) := by
  rw [valWords_concat, valWords_concat, hlen]
  calc valWords ys + 2 ^ (32 * ys.length) * y.toNat
      < 2 ^ (32 * ys.length) + 2 ^ (32 * ys.length) * y.toNat := Nat.add_lt_add_right (valWords_lt ys) _
    _ = 2 ^ (32 * ys.length) * (y.toNat + 1) := by ring
    _ ≤ 2 ^ (32 * ys.length) * x.toNat := Nat.mul_le_mul_left _ h
    _ ≤ valWords xs + 2 ^ (32 * ys.length) * x.toNat := Nat.le_add_left _ _

/-! ## The scan (41_reference_datapath.md R131) -/

theorem geScan_cons_of_eq (x : Word) (xs ys : List Word) : geScan (x :: xs) (x :: ys) = geScan xs ys := by
  simp [geScan]

theorem geScan_cons_of_ne {x y : Word} (h : x ≠ y) (xs ys : List Word) :
    geScan (x :: xs) (y :: ys) = decide (y.toNat < x.toNat) := by
  simp [geScan, h]

/-- The words that two lists have in common at their head do not decide. -/
theorem geScan_append (zs xs ys : List Word) : geScan (zs ++ xs) (zs ++ ys) = geScan xs ys := by
  induction zs with
  | nil => rfl
  | cons z zs ih => rw [List.cons_append, List.cons_append, geScan_cons_of_eq, ih]

/-- The scan of two lists of the same length is the order of their values, by induction from the highest word down. -/
theorem geScan_reverse_iff {xs ys : List Word} (hlen : xs.length = ys.length) :
    geScan xs.reverse ys.reverse = true ↔ valWords ys ≤ valWords xs := by
  induction xs using List.reverseRecOn generalizing ys with
  | nil => simp [List.eq_nil_of_length_eq_zero hlen.symm, geScan]
  | append_singleton xs x ih =>
    obtain rfl | ⟨ys, y, rfl⟩ := ys.eq_nil_or_concat'
    · simp at hlen
    have hlen' : xs.length = ys.length := by simpa using hlen
    rw [List.reverse_concat, List.reverse_concat]
    rcases Nat.lt_trichotomy y.toNat x.toNat with hlt | heq | hgt
    · rw [geScan_cons_of_ne (ne_of_apply_ne BitVec.toNat hlt.ne')]
      simpa [hlt] using (valWords_concat_lt hlen' hlt).le
    · obtain rfl := BitVec.eq_of_toNat_eq heq
      rw [geScan_cons_of_eq, ih hlen', valWords_concat, valWords_concat, hlen', Nat.add_le_add_iff_right]
    · rw [geScan_cons_of_ne (ne_of_apply_ne BitVec.toNat hgt.ne)]
      simpa [hgt.not_gt] using valWords_concat_lt hlen'.symm hgt

/-- The highest place where two lists of the same length differ decides. -/
theorem geScan_reverse_of_highest_ne {xs ys : List Word} {k : Nat} (hlen : xs.length = ys.length) (hk : k < xs.length)
    (hne : xs[k] ≠ ys[k]) (habove : xs.drop (k + 1) = ys.drop (k + 1)) :
    geScan xs.reverse ys.reverse = decide (ys[k].toNat < xs[k].toNat) := by
  have reverse_eq (ws : List Word) (h : k < ws.length) :
      ws.reverse = (ws.drop (k + 1)).reverse ++ ws[k] :: (ws.take k).reverse := by
    conv_lhs => rw [← List.take_append_drop k ws, List.drop_eq_getElem_cons h]
    simp
  rw [reverse_eq xs hk, reverse_eq ys (hlen ▸ hk), habove, geScan_append, geScan_cons_of_ne hne]

theorem wideGe_iff (x y : Wide) : wideGe x y = true ↔ y.toNat ≤ x.toNat := by
  rw [wideGe, geScan_reverse_iff (by simp only [wideWords_length]), valWords_wideWords, valWords_wideWords]

/-- Settles O42: the scan is the order of the values; from its equation at the highest word that differs, that word
decides. -/
theorem wordwiseCompareIsTheOrder : Obligations.WordwiseCompareIsTheOrder := by
  refine fun x y => ⟨wideGe_iff x y, fun k hne habove => ?_, fun heq => ?_⟩
  · have hdrop : (wideWords x).drop (k + 1) = (wideWords y).drop (k + 1) := by
      refine List.ext_getElem (by simp [wideWords_length]) fun i hi _ => ?_
      have hm : k + 1 + i < 16 := by
        rw [List.length_drop, wideWords_length] at hi
        omega
      simpa [wideWords] using habove ⟨k + 1 + i, hm⟩ (Fin.lt_def.mpr (by simp only; omega))
    rw [wideGe, geScan_reverse_of_highest_ne (by simp only [wideWords_length]) (by simp [wideWords_length])
      (by simpa [wideWords] using hne) hdrop]
    simp [wideWords]
  · have hwords : words 16 x.toNat = words 16 y.toNat := Vector.ext fun i hi => heq ⟨i, hi⟩
    exact (wideGe_iff x y).mpr (words_injective 16 _ _ x.isLt y.isLt hwords).ge

end Sys2Proof.Machine
end

section
/-! PROOFS. The rejections of 60_exceptions.md: the illegal words are those of value 4 and more, a CMD write of one or of
any word while busy rejects, and a rejection commutes with the completion; then the statements. -/

namespace Sys2Proof.Machine

/-! ## The illegal words by their value (60_exceptions.md R163) -/

theorem exists_decode_error_iff (v : Word) : (∃ e, decode v = .error e) ↔ 4 ≤ v.toNat := by
  rw [decode_eq_error_iff, forall_ne_encode_iff]
  bv_omega

theorem exists_decode_ok_iff (v : Word) : (∃ i, decode v = .ok i) ↔ v.toNat < 4 := by
  rw [← Nat.not_le, ← exists_decode_error_iff]
  cases decode v <;> simp

/-- A bit of 31:4 or an OP of 4 and more makes the word's value at least 4. -/
theorem four_le_of_fields {v : Word} (h : v >>> 4 ≠ 0 ∨ 4 ≤ v.toNat % 16) : 4 ≤ v.toNat := by
  obtain hrsv | hop := h
  · bv_omega
  · exact hop.trans (Nat.mod_le _ _)

/-! ## The CMD write that is rejected (60_exceptions.md R162) -/

theorem transact_cmd_illegal {v : Word} (h : 4 ≤ v.toNat) (s : State) :
    transact (writeTxn 0x008 v) s = .next { s with blk := reject .illegalCmd s.blk, resp := some .ok } := by
  obtain ⟨e, he⟩ := (exists_decode_error_iff v).mpr h
  rw [transact_cmd, issue_of_decode_error he]
  rfl

theorem transact_cmd_busy {v : Word} (h : v.toNat < 4) {s : State} (hbusy : s.blk.busy = true) :
    transact (writeTxn 0x008 v) s = .next { s with blk := reject .cmdWhileBusy s.blk, resp := some .ok } := by
  obtain ⟨i, hi⟩ := (exists_decode_ok_iff v).mpr h
  rw [transact_cmd, issue_busy hi hbusy]
  rfl

/-! ## What a rejection leaves -/

/-- Completion reads and writes neither ERR nor ECODE, the registers of a rejection. -/
theorem complete_reject (c : RejectCode) (b : Block) : complete (reject c b) = reject c (complete b) := by
  cases hbusy : b.busy with
  | false => rw [complete_idle hbusy, complete_idle ((reject_busy c b).trans hbusy)]
  | true => rw [complete_busy hbusy, complete_busy ((reject_busy c b).trans hbusy)]; rfl

theorem reject_reject (c d : RejectCode) (b : Block) : reject d (reject c b) = reject d b := rfl

/-! ## The statements -/

/-- Settles O9: such a word has a value of 4 or more, so it does not decode, whatever BUSY is. -/
theorem illegalCommandIsRejected : Obligations.IllegalCommandIsRejected :=
  fun _ s h => transact_cmd_illegal (four_le_of_fields h) s

/-- Settles O10: the word decodes, and its issue finds the block busy. -/
theorem busyCommandIsRejected : Obligations.BusyCommandIsRejected :=
  fun _ _ hv hbusy => transact_cmd_busy hv hbusy

/-- Settles O11: each cause fixes the value's side of 4, and so the code; a rejection commutes with the completion. -/
theorem rejectionIsPrecise : Obligations.RejectionIsPrecise := by
  refine ⟨fun v s hcause => ⟨_, rfl, ?_⟩, fun c b _ => complete_reject c b, reject_reject⟩
  obtain herror | ⟨hok, hbusy⟩ := hcause
  · have hv : 4 ≤ v.toNat := (exists_decode_error_iff v).mp herror
    rw [if_pos hv]
    exact transact_cmd_illegal hv s
  · have hv : v.toNat < 4 := (exists_decode_ok_iff v).mp hok
    rw [if_neg hv.not_ge]
    exact transact_cmd_busy hv hbusy

end Sys2Proof.Machine
end

section
/-! PROOFS. The resets of 70_reset_and_hazards.md: a reset block completes nothing; then the statements. -/

namespace Sys2Proof.Machine

open Sys2Proof.Claims

/-- A block at the reset values has no command in flight, so no completion is enabled in it (R183). -/
theorem complete_of_atReset {b : Block} (h : atReset b) :
    b.busy = false ∧ b.done = false ∧ (∀ j : Fin 16, b.res[j] = 0) ∧ complete b = b := by
  obtain ⟨-, -, hres, -, -, hbusy, hdone, -⟩ := h
  exact ⟨hbusy, hdone, hres, complete_idle hbusy⟩

/-! ## The statements -/

/-- Settles O2: with SRST set the CTRL write is the reset, and it discards bit 0 of the datum. -/
theorem softResetThroughCtrl : Obligations.SoftResetThroughCtrl := by
  refine fun s v hsrst => ⟨_, transact_write_ctrl v s, ?_, rfl, rfl, rfl⟩
  rw [writeCtrl_srst hsrst]
  exact atReset_reset

/-- Settles O4: either reset gives the reset values from every block, one with a command in flight and one that has
just completed it. -/
theorem resetAbandonsTheCommand : Obligations.ResetAbandonsTheCommand := by
  obtain ⟨-, hard, soft⟩ := resetStateHasTheTableValues
  refine fun s _ => ⟨fun b hb => complete_of_atReset ?_, soft (complete s.blk), hard (completeStep s)⟩
  obtain rfl | rfl := hb
  · exact soft s.blk
  · exact hard s

end Sys2Proof.Machine
end

section
/-! PROOFS. The arithmetic primitives of 41_reference_datapath.md section 2: the chains of R132 and R133 by the word at
their head, the rotations of R134 by the bit they move; then the statements. -/

namespace Sys2Proof.Machine

/-! ## The carry and the borrow chain (41_reference_datapath.md R132, R133) -/

/-- A congruence of the upper words, put over a lowest word. -/
theorem modEq_cons {m a b : Nat} (u : Nat) (h : a ≡ b [MOD 2 ^ (32 * m)]) :
    u + 2 ^ 32 * a ≡ u + 2 ^ 32 * b [MOD 2 ^ (32 * (m + 1))] := by
  rw [Nat.mul_succ, Nat.add_comm (32 * m) 32, Nat.pow_add]
  exact (h.mul_left' _).add_left u

/-- The carry chain adds, up to the carry out of the last word. -/
theorem valWords_addWords (c : Nat) {xs ys : List Word} (hlen : xs.length = ys.length) :
    valWords (addWords c xs ys) ≡ valWords xs + valWords ys + c [MOD 2 ^ (32 * xs.length)] := by
  induction xs generalizing c ys with
  | nil => simp [Nat.modEq_one]
  | cons x xs ih =>
    obtain - | ⟨y, ys⟩ := ys
    · simp at hlen
    rw [List.length_cons, addWords, valWords, valWords, valWords, BitVec.toNat_ofNat, Nat.shiftRight_eq_div_pow]
    calc (x.toNat + y.toNat + c) % 2 ^ 32 + 2 ^ 32 * valWords (addWords ((x.toNat + y.toNat + c) / 2 ^ 32) xs ys)
        ≡ (x.toNat + y.toNat + c) % 2 ^ 32 +
            2 ^ 32 * (valWords xs + valWords ys + (x.toNat + y.toNat + c) / 2 ^ 32) [MOD 2 ^ (32 * (xs.length + 1))] :=
          modEq_cons _ (ih _ (by simpa using hlen))
      _ = x.toNat + 2 ^ 32 * valWords xs + (y.toNat + 2 ^ 32 * valWords ys) + c := by omega

/-- One word of the borrow chain: the difference word and the borrow out account for the borrow in. -/
theorem toNat_subWord (x y : Word) {br : Nat} (hbr : br ≤ 1) :
    (BitVec.ofInt 32 ((x.toNat : Int) - y.toNat - br)).toNat + y.toNat + br =
      x.toNat + 2 ^ 32 * (if (x.toNat : Int) - y.toNat - br < 0 then 1 else 0) := by
  have hx := x.isLt
  have hy := y.isLt
  rw [BitVec.toNat_ofInt]
  split <;> omega

/-- The borrow chain subtracts, up to the borrow out of the last word. -/
theorem valWords_subWords {br : Nat} (hbr : br ≤ 1) {xs ys : List Word} (hlen : xs.length = ys.length) :
    valWords (subWords br xs ys) + valWords ys + br ≡ valWords xs [MOD 2 ^ (32 * xs.length)] := by
  induction xs generalizing br ys with
  | nil => simp [Nat.modEq_one]
  | cons x xs ih =>
    obtain - | ⟨y, ys⟩ := ys
    · simp at hlen
    have head := toNat_subWord x y hbr
    have hout : (if (x.toNat : Int) - y.toNat - br < 0 then 1 else 0) ≤ 1 := by split <;> decide
    rw [List.length_cons, subWords, valWords, valWords, valWords]
    generalize (if (x.toNat : Int) - y.toNat - br < 0 then 1 else 0) = out at head hout ⊢
    calc (BitVec.ofInt 32 ((x.toNat : Int) - y.toNat - br)).toNat + 2 ^ 32 * valWords (subWords out xs ys) +
            (y.toNat + 2 ^ 32 * valWords ys) + br
        = x.toNat + 2 ^ 32 * (valWords (subWords out xs ys) + valWords ys + out) := by omega
      _ ≡ x.toNat + 2 ^ 32 * valWords xs [MOD 2 ^ (32 * (xs.length + 1))] :=
          modEq_cons _ (ih hout (by simpa using hlen))

theorem wideAdd_eq_add (x y : Wide) : wideAdd x y = x + y := by
  have chain := valWords_addWords 0 (xs := wideWords x) (ys := wideWords y) (by simp only [wideWords_length])
  rw [wideWords_length, valWords_wideWords, valWords_wideWords] at chain
  apply BitVec.eq_of_toNat_eq
  rw [wideAdd, wideOfWords, BitVec.toNat_ofNat, BitVec.toNat_add]
  exact chain

theorem wideSub_eq_sub (x y : Wide) : wideSub x y = x - y := by
  have chain := valWords_subWords (Nat.zero_le 1) (xs := wideWords x) (ys := wideWords y)
    (by simp only [wideWords_length])
  rw [wideWords_length, valWords_wideWords, valWords_wideWords, Nat.add_zero] at chain
  have hadd : wideSub x y + y = x := by
    apply BitVec.eq_of_toNat_eq
    rw [wideSub, wideOfWords, BitVec.toNat_add, BitVec.toNat_ofNat, Nat.mod_add_mod]
    exact Nat.mod_eq_of_modEq chain x.isLt
  exact (BitVec.eq_sub_iff_add_eq).mpr hadd

/-! ## The rotations (00_scope.md R15, 41_reference_datapath.md R134) -/

theorem rotl1_eq_rotateLeft (x : Wide) : rotl1 x = x.rotateLeft 1 := rfl

theorem rotr1_eq_rotateRight (x : Wide) : rotr1 x = x.rotateRight 1 := rfl

/-- Bit `i` after a rotation to the right is the bit `k` places up, around the end. -/
theorem getLsbD_rotateRight_mod (x : Wide) (k : Nat) {i : Nat} (hi : i < 512) :
    (x.rotateRight k).getLsbD i = x.getLsbD ((i + k) % 512) := by
  rw [BitVec.getLsbD_rotateRight]
  by_cases h : i < 512 - k % 512
  · rw [decide_eq_true h, cond_true, show (i + k) % 512 = k % 512 + i by omega]
  · rw [decide_eq_false h, cond_false, decide_eq_true hi, Bool.true_and,
      show (i + k) % 512 = i - (512 - k % 512) by omega]

theorem getLsbD_rotr1 (x : Wide) {i : Nat} (hi : i < 512) : (rotr1 x).getLsbD i = x.getLsbD ((i + 1) % 512) := by
  rw [rotr1_eq_rotateRight, getLsbD_rotateRight_mod x 1 hi]

theorem getLsbD_rotl1 (x : Wide) {i : Nat} (hi : i < 512) : (rotl1 x).getLsbD i = x.getLsbD ((i + 511) % 512) := by
  rw [rotl1_eq_rotateLeft, BitVec.getLsbD_rotateLeft]
  obtain - | i := i
  · rfl
  · simp [hi, show (i + 1 + 511) % 512 = i by omega]

/-- `k` rotations to the right and one more (41_reference_datapath.md R134). -/
theorem rotr1_rotateRight (x : Wide) (k : Nat) : rotr1 (x.rotateRight k) = x.rotateRight (k + 1) := by
  refine BitVec.eq_of_getLsbD_eq fun i hi => ?_
  rw [getLsbD_rotr1 _ hi, getLsbD_rotateRight_mod _ _ (Nat.mod_lt _ (by decide)), getLsbD_rotateRight_mod _ _ hi]
  congr 1
  omega

/-- Settles O43: each chain is a sum or difference modulo the value of a 17th word, which 512 bits discard. -/
theorem wordwiseAddAndSubtract : Obligations.WordwiseAddAndSubtract := by
  refine fun x y => ⟨?_, wideSub_eq_sub x y, fun h => ?_⟩
  · rw [wideAdd_eq_add, BitVec.toNat_add]
  · rw [wideSub_eq_sub, BitVec.toNat_sub_of_le h]

/-- Settles O44: both are the library's rotations by 1, whose bits are known. -/
theorem rotationsAreCircular : Obligations.RotationsAreCircular :=
  fun x _ hi => ⟨getLsbD_rotl1 x hi, getLsbD_rotr1 x hi⟩

end Sys2Proof.Machine
end

section
/-! PROOFS. The two loops of 41_reference_datapath.md sections 3 and 4: what their entry establishes, what one iteration
keeps, and what they leave at their exit. -/

namespace Sys2Proof.Machine

/-! ## One rotation as arithmetic (41_reference_datapath.md R134) -/

theorem rotateRight_zero (x : Wide) : x.rotateRight 0 = x := by
  refine BitVec.eq_of_getLsbD_eq fun i hi => ?_
  rw [getLsbD_rotateRight_mod x 0 hi, Nat.add_zero, Nat.mod_eq_of_lt hi]

/-- While the top bit is 0 nothing wraps, and a rotation to the left doubles. -/
theorem rotl1_toNat {x : Wide} (h : x.toNat < 2 ^ 511) : (rotl1 x).toNat = x.toNat * 2 := by
  have hfit : x.toNat * 2 < 2 ^ 512 := by
    rw [Nat.pow_succ 2 511]
    exact Nat.mul_lt_mul_of_pos_right h (by decide)
  rw [rotl1, Config.W, BitVec.toNat_or, BitVec.toNat_shiftLeft, BitVec.toNat_ushiftRight, Nat.shiftLeft_eq, Nat.pow_one,
    Nat.mod_eq_of_lt hfit, Nat.shiftRight_eq_div_pow, Nat.div_eq_of_lt h, Nat.or_zero]

/-- While the bottom bit is 0 nothing wraps, and a rotation to the right halves. -/
theorem rotr1_toNat {x : Wide} {n : Nat} (h : x.toNat = n * 2) : (rotr1 x).toNat = n := by
  have hwrap : n * 2 * 2 ^ 511 % 2 ^ 512 = 0 := by
    rw [Nat.mul_assoc, Nat.mul_comm 2, ← Nat.pow_succ]
    exact Nat.mul_mod_left n _
  rw [rotr1, Config.W, BitVec.toNat_or, BitVec.toNat_shiftLeft, BitVec.toNat_ushiftRight, h, Nat.shiftLeft_eq, hwrap,
    Nat.shiftRight_eq_div_pow, Nat.or_zero, Nat.pow_one, Nat.mul_div_cancel n (by decide)]

/-- The loop counter does not wrap before its loop's exit. -/
theorem cnt_succ {c : BitVec 10} (h : c.toNat ≤ 512) : (c + 1).toNat = c.toNat + 1 := by
  bv_omega

/-! ## The multiply loop (41_reference_datapath.md R135) -/

/-- What `multInv` says of the datapath registers, of a datapath alone; it holds also after the last iteration. -/
def MultLoop (la lb : Operand) (d : Datapath) : Prop :=
  d.acc.toNat = la.toNat * (lb.toNat % 2 ^ d.cnt.toNat) ∧
  (d.cnt.toNat ≤ 256 → d.wa.toNat = la.toNat * 2 ^ d.cnt.toNat) ∧
  d.wb = (lb.setWidth 512).rotateRight d.cnt.toNat

theorem multInv_iff (b : Block) :
    multInv b ↔ (b.opif = .mul ∨ b.opif = .mulraw) ∧ b.dp.cnt.toNat < Config.W ∧ MultLoop b.la b.lb b.dp := Iff.rfl

theorem multLoop_enter (la lb : Operand) (d : Datapath) : MultLoop la lb (multEnter la lb d) := by
  refine ⟨?_, fun _ => ?_, ?_⟩
  · simp [Nat.mod_one]
  · rw [multEnter_wa, multEnter_cnt, BitVec.toNat_setWidth, Nat.mod_eq_of_lt (la.isLt.trans ?_)]
    · exact (Nat.mul_one _).symm
    · exact Nat.pow_lt_pow_right (by decide) (by decide)
  · rw [multEnter_wb, multEnter_cnt]
    exact (rotateRight_zero _).symm

/-- A set bit of the second operand is below bit 256, so the copy that it adds has not wrapped. -/
theorem lt_of_testBit_operand {lb : Operand} {k : Nat} (h : lb.toNat.testBit k = true) : k < 256 :=
  (Nat.pow_lt_pow_iff_right (by decide)).mp ((Nat.ge_two_pow_of_testBit h).trans_lt lb.isLt)

/-- One iteration adds the partial product of the bit that CNT names. -/
theorem MultLoop.body {la lb : Operand} {d : Datapath} (h : MultLoop la lb d) (hk : d.cnt.toNat < 512) :
    MultLoop la lb (multBody d) := by
  obtain ⟨hacc, hwa, hwb⟩ := h
  have hbit : d.wb.getLsbD 0 = lb.toNat.testBit d.cnt.toNat := by
    rw [hwb, getLsbD_rotateRight_mod _ _ (by decide), Nat.zero_add, Nat.mod_eq_of_lt hk, BitVec.getLsbD_setWidth,
      decide_eq_true hk, Bool.true_and, BitVec.testBit_toNat]
  unfold MultLoop
  rw [multBody_acc, multBody_wa, multBody_wb, multBody_cnt, cnt_succ hk.le, hbit]
  generalize d.cnt.toNat = k at *
  have hmod : lb.toNat % 2 ^ (k + 1) = lb.toNat % 2 ^ k + 2 ^ k * (lb.toNat.testBit k).toNat := by
    rw [Nat.mod_pow_succ, Nat.toNat_testBit]
  refine ⟨?_, fun hk' => ?_, ?_⟩
  · cases hb : lb.toNat.testBit k with
    | false =>
      rw [if_neg (by decide), hacc, hmod, hb, Bool.toNat_false, Nat.mul_zero, Nat.add_zero]
    | true =>
      rw [hb, Bool.toNat_true, Nat.mul_one] at hmod
      have hfit : la.toNat * (lb.toNat % 2 ^ (k + 1)) < 2 ^ 512 :=
        resultMulraw_lt la.isLt ((Nat.mod_le _ _).trans_lt lb.isLt)
      rw [if_pos rfl, wideAdd_eq_add, BitVec.toNat_add, hacc, hwa (lt_of_testBit_operand hb).le, ← Nat.mul_add, ← hmod,
        Nat.mod_eq_of_lt hfit]
  · have hfit : la.toNat * 2 ^ k < 2 ^ 511 :=
      calc la.toNat * 2 ^ k < 2 ^ 256 * 2 ^ k := Nat.mul_lt_mul_of_pos_right la.isLt (Nat.two_pow_pos k)
        _ ≤ 2 ^ 511 := by rw [← Nat.pow_add]; exact Nat.pow_le_pow_right (by decide) (by omega)
    have hwa := hwa (by omega)
    rw [rotl1_toNat (hwa ▸ hfit), hwa, Nat.pow_succ, Nat.mul_assoc]
  · rw [hwb, rotr1_rotateRight]

/-- After the last iteration ACC is the product. -/
theorem MultLoop.product {la lb : Operand} {d : Datapath} (h : MultLoop la lb d) (hk : d.cnt.toNat = 512) :
    d.acc.toNat = la.toNat * lb.toNat := by
  obtain ⟨hacc, -, -⟩ := h
  rw [hacc, hk, Nat.mod_eq_of_lt (lb.isLt.trans (Nat.pow_lt_pow_right (by decide) (by decide)))]

/-! ## The shifted modulus (41_reference_datapath.md R136) -/

/-- MD at the entry of the reduce loop: p with its top bit at bit W - 1. -/
def shiftedModulus : Wide := BitVec.ofNat 512 (Config.p <<< 257)

theorem shiftedModulus_toNat : shiftedModulus.toNat = Config.p * 2 ^ 257 := by decide +kernel

/-- Down to p itself, each rotation of MD halves it. -/
theorem shiftedModulus_rotateRight_toNat {k : Nat} (hk : k ≤ 257) :
    (shiftedModulus.rotateRight k).toNat = Config.p * 2 ^ (257 - k) := by
  induction k with
  | zero => rw [rotateRight_zero, shiftedModulus_toNat]
  | succ k ih =>
    rw [← rotr1_rotateRight]
    apply rotr1_toNat
    rw [ih (by omega), Nat.mul_assoc, ← Nat.pow_succ, Nat.succ_eq_add_one, show 257 - (k + 1) + 1 = 257 - k by omega]

/-- Beyond that, bit 0 of p is at bit 257 or above, so MD exceeds p and no subtraction happens. -/
theorem modulus_lt_shiftedModulus_rotateRight {k : Nat} (hk : 257 < k) (hk' : k ≤ 512) :
    Config.p < (shiftedModulus.rotateRight k).toNat := by
  have hbit : (shiftedModulus.rotateRight k).getLsbD (769 - k) = true := by
    rw [getLsbD_rotateRight_mod _ _ (by omega), show (769 - k + k) % 512 = 257 by omega]
    decide +kernel
  calc Config.p < 2 ^ 256 := modulus_lt
    _ ≤ 2 ^ (769 - k) := Nat.pow_le_pow_right (by decide) (by omega)
    _ ≤ (shiftedModulus.rotateRight k).toNat := Nat.ge_two_pow_of_testBit (by rwa [BitVec.testBit_toNat])

/-! ## The reduce loop (41_reference_datapath.md R136) -/

/-- What `redcInv` says of the datapath registers, of a datapath alone that reduces `x`; it holds also after the last
iteration. -/
def RedcLoop (x : Nat) (d : Datapath) : Prop :=
  d.acc.toNat % Config.p = x % Config.p ∧
  (d.cnt.toNat ≤ 257 → d.acc.toNat < 2 * Config.p * 2 ^ (257 - d.cnt.toNat)) ∧
  (257 < d.cnt.toNat → d.acc.toNat < Config.p) ∧
  d.md = shiftedModulus.rotateRight d.cnt.toNat

theorem redcInv_iff (b : Block) :
    redcInv b ↔ (b.opif = .mul ∨ b.opif = .red) ∧ b.dp.cnt.toNat ≤ Config.W ∧ RedcLoop (redcValue b) b.dp := Iff.rfl

/-- Every 512-bit value is below twice the shifted modulus. -/
theorem redcLoop_enter (op : Instr) (la lb : Operand) (d : Datapath) :
    RedcLoop (redcEnter op la lb d).acc.toNat (redcEnter op la lb d) := by
  have all_below : 2 ^ 512 < 2 * Config.p * 2 ^ 257 := by decide +kernel
  exact ⟨rfl, fun _ => (BitVec.isLt _).trans all_below, nofun, (rotateRight_zero shiftedModulus).symm⟩

theorem redcBody_acc_toNat (d : Datapath) : (redcBody d).acc.toNat =
    if d.md.toNat ≤ d.acc.toNat then d.acc.toNat - d.md.toNat else d.acc.toNat := by
  simp only [redcBody_acc, wideGe_iff, wideSub_eq_sub]
  split
  · next h => exact BitVec.toNat_sub_of_le h
  · rfl

/-- Down to MD = p an iteration brings ACC from below 2 MD to below MD. -/
theorem RedcLoop.body_high {x : Nat} {d : Datapath} (h : RedcLoop x d) (hk : d.cnt.toNat ≤ 257) :
    (redcBody d).acc.toNat % Config.p = x % Config.p ∧
    (redcBody d).acc.toNat < Config.p * 2 ^ (257 - d.cnt.toNat) := by
  obtain ⟨hmod, hhigh, -, hmd⟩ := h
  have hacc := hhigh hk
  rw [redcBody_acc_toNat, hmd, shiftedModulus_rotateRight_toNat hk, ← hmod]
  rw [Nat.mul_assoc] at hacc
  split
  · next hge => exact ⟨Nat.sub_mul_mod hge, by omega⟩
  · next hlt => exact ⟨rfl, not_le.mp hlt⟩

/-- Beyond it ACC is below p, and no iteration changes it. -/
theorem RedcLoop.body_low {x : Nat} {d : Datapath} (h : RedcLoop x d) (hk : 257 < d.cnt.toNat)
    (hk' : d.cnt.toNat ≤ 512) : (redcBody d).acc = d.acc := by
  obtain ⟨-, -, hlow, hmd⟩ := h
  have hlt : d.acc.toNat < d.md.toNat := by
    rw [hmd]
    exact (hlow hk).trans (modulus_lt_shiftedModulus_rotateRight hk hk')
  apply BitVec.eq_of_toNat_eq
  rw [redcBody_acc_toNat, if_neg hlt.not_ge]

/-- One iteration subtracts MD, a multiple of p, or leaves ACC. -/
theorem RedcLoop.body {x : Nat} {d : Datapath} (h : RedcLoop x d) (hk : d.cnt.toNat ≤ 512) :
    RedcLoop x (redcBody d) := by
  have hmd : (redcBody d).md = shiftedModulus.rotateRight (redcBody d).cnt.toNat := by
    obtain ⟨-, -, -, hmd⟩ := h
    rw [redcBody_md, redcBody_cnt, cnt_succ hk, hmd, rotr1_rotateRight]
  have hcnt : (redcBody d).cnt.toNat = d.cnt.toNat + 1 := by rw [redcBody_cnt, cnt_succ hk]
  rcases Nat.lt_trichotomy d.cnt.toNat 257 with hlt | heq | hgt
  · obtain ⟨hmod, hacc⟩ := h.body_high hlt.le
    refine ⟨hmod, fun _ => ?_, fun hgt => by omega, hmd⟩
    rw [hcnt, Nat.mul_comm 2, Nat.mul_assoc, ← Nat.pow_succ', Nat.succ_eq_add_one,
      show 257 - (d.cnt.toNat + 1) + 1 = 257 - d.cnt.toNat by omega]
    exact hacc
  · obtain ⟨hmod, hacc⟩ := h.body_high heq.le
    rw [heq, Nat.sub_self, Nat.pow_zero, Nat.mul_one] at hacc
    exact ⟨hmod, fun hle => by omega, fun _ => hacc, hmd⟩
  · have hacc := h.body_low hgt hk
    obtain ⟨hmod, -, hlow, -⟩ := h
    exact ⟨by rw [hacc, hmod], fun hle => by omega, fun _ => by rw [hacc]; exact hlow hgt, hmd⟩

/-- After the last iteration ACC is the residue. -/
theorem RedcLoop.residue {x : Nat} {d : Datapath} (h : RedcLoop x d) (hk : 257 < d.cnt.toNat) :
    d.acc.toNat = x % Config.p := by
  obtain ⟨hmod, -, hlow, -⟩ := h
  rw [← hmod, Nat.mod_eq_of_lt (hlow hk)]

end Sys2Proof.Machine
end

section
/-! PROOFS. The invariant of Safety.lean and the clocked datapath: one clock of each loop, with the clocks that it still
needs; the parts of the invariant over every move of the block; then the statements. -/

namespace Sys2Proof.Machine

open Sys2Proof.Claims

/-! ## One clock of each loop, by the iteration it performs -/

/-- The clock of an iteration that is not the loop's last. -/
theorem multClock_of_lt {d : Datapath} (h : d.cnt.toNat + 1 < 512) (op : Instr) (la lb : Operand) :
    multClock op la lb d = multBody d := by
  have hcnt : (multBody d).cnt.toNat < Config.W := by rw [multBody_cnt, cnt_succ (by omega)]; exact h
  simp only [multClock, if_pos (show d.cnt.toNat < Config.W from by rw [Config.W]; omega), if_pos hcnt]

/-- The clock of the loop's last iteration performs the exit too. -/
theorem multClock_last {d : Datapath} (h : d.cnt.toNat + 1 = 512) (op : Instr) (la lb : Operand) :
    multClock op la lb d = multExit op la lb (multBody d) := by
  have hcnt : ¬ (multBody d).cnt.toNat < Config.W := by rw [multBody_cnt, cnt_succ (by omega), Config.W]; omega
  simp only [multClock, if_pos (show d.cnt.toNat < Config.W from by rw [Config.W]; omega), if_neg hcnt]

theorem redcClock_of_lt {d : Datapath} (h : d.cnt.toNat < 512) : redcClock d = redcBody d := by
  have hcnt : (redcBody d).cnt.toNat ≤ Config.W := by rw [redcBody_cnt, cnt_succ h.le]; exact h
  simp only [redcClock, if_pos (show d.cnt.toNat ≤ Config.W from h.le), if_pos hcnt]

theorem redcClock_last {d : Datapath} (h : d.cnt.toNat = 512) :
    redcClock d = { redcBody d with phase := .fin } := by
  have hcnt : ¬ (redcBody d).cnt.toNat ≤ Config.W := by rw [redcBody_cnt, cnt_succ h.le, Config.W]; omega
  simp only [redcClock, if_pos (show d.cnt.toNat ≤ Config.W from h.le), if_neg hcnt]

theorem multExit_mulraw (la lb : Operand) (d : Datapath) : multExit .mulraw la lb d = { d with phase := .fin } := rfl

theorem multExit_mul (la lb : Operand) (d : Datapath) : multExit .mul la lb d = redcEnter .mul la lb d := rfl

/-! ## The datapath's part of the invariant, phase by phase -/

theorem datapathInv_idle_iff {b : Block} (hp : b.dp.phase = .idle) : datapathInv b ↔ b.busy = false := by
  simp only [datapathInv, hp]

theorem datapathInv_mult_iff {b : Block} (hp : b.dp.phase = .mult) :
    datapathInv b ↔ b.busy = true ∧ (b.opif = .mul ∨ b.opif = .mulraw) ∧ b.dp.cnt.toNat < 512 ∧
      MultLoop b.la b.lb b.dp := by
  simp only [datapathInv, hp, multInv_iff, Config.W]

theorem datapathInv_redc_iff {b : Block} (hp : b.dp.phase = .redc) :
    datapathInv b ↔ b.busy = true ∧ (b.opif = .mul ∨ b.opif = .red) ∧ b.dp.cnt.toNat ≤ 512 ∧
      RedcLoop (redcValue b) b.dp := by
  simp only [datapathInv, hp, redcInv_iff, Config.W]

theorem datapathInv_fin_iff {b : Block} (hp : b.dp.phase = .fin) : datapathInv b ↔ b.busy = true ∧ finInv b := by
  simp only [datapathInv, hp]

/-- BUSY = 1 exactly outside IDLE. -/
theorem busy_iff_of_datapathInv {b : Block} (h : datapathInv b) : b.busy = true ↔ b.dp.phase ≠ .idle := by
  cases hp : b.dp.phase with
  | idle => simp [(datapathInv_idle_iff hp).mp h]
  | mult => simp [((datapathInv_mult_iff hp).mp h).1]
  | redc => simp [((datapathInv_redc_iff hp).mp h).1]
  | fin => simp [((datapathInv_fin_iff hp).mp h).1]

theorem redcValue_withDatapath (b : Block) (d : Datapath) : redcValue { b with dp := d } = redcValue b := by
  rw [redcValue, redcValue]

/-- The residue of `redcValue` is the result of the command that the reduce loop serves. -/
theorem result_of_redcValue {b : Block} (hop : b.opif = .mul ∨ b.opif = .red) :
    result b.opif b.la.toNat b.lb.toNat = some (redcValue b % Config.p) := by
  obtain h | h := hop <;> simp [redcValue, h, result, resultMul, resultRed]

/-- The clocks that the loops still need until FIN. -/
def clocksToFin (op : Instr) (d : Datapath) : Nat :=
  match d.phase with
  | .idle => 0
  | .mult => 512 - d.cnt.toNat + if op = .mul then 513 else 0
  | .redc => 513 - d.cnt.toNat
  | .fin => 0

/-- Acceptance enters the loop that its command needs (40_arith_commands.md R101). -/
theorem datapathInv_accept (op : Instr) (v : Word) (b : Block) : datapathInv (accept op v b) := by
  cases op with
  | nop => exact ⟨rfl, nofun⟩
  | mul => exact ⟨rfl, .inl rfl, show 0 < 512 by decide, multLoop_enter _ _ _⟩
  | mulraw => exact ⟨rfl, .inr rfl, show 0 < 512 by decide, multLoop_enter _ _ _⟩
  | red =>
    have h := redcLoop_enter .red (operandA b) (operandB b) b.dp
    rw [redcEnter_acc, if_pos rfl, redInput_toNat] at h
    exact ⟨rfl, .inr rfl, show 0 ≤ 512 by decide, h⟩

/-! ## One clock, over the invariant -/

/-- The datapath registers `d` follow those of `b` after one clock of a loop: the invariant holds, and one clock less
remains until FIN. -/
def ClockedTo (b : Block) (d : Datapath) : Prop :=
  datapathInv { b with dp := d } ∧ clocksToFin b.opif d + 1 = clocksToFin b.opif b.dp

theorem clockedTo_multClock {b : Block} (hp : b.dp.phase = .mult) (h : datapathInv b) :
    ClockedTo b (multClock b.opif b.la b.lb b.dp) := by
  obtain ⟨hbusy, hop, hcnt, hloop⟩ := (datapathInv_mult_iff hp).mp h
  have hbody := hloop.body hcnt
  have hcnt' : (multBody b.dp).cnt.toNat = b.dp.cnt.toNat + 1 := by rw [multBody_cnt, cnt_succ hcnt.le]
  have hp' : (multBody b.dp).phase = .mult := by rw [multBody_phase, hp]
  obtain hlt | hlast := Nat.lt_or_eq_of_le hcnt
  · rw [multClock_of_lt hlt]
    refine ⟨(datapathInv_mult_iff (b := { b with dp := multBody b.dp }) hp').mpr
      ⟨hbusy, hop, hcnt'.trans_lt hlt, hbody⟩, ?_⟩
    simp only [clocksToFin, hp, hp', hcnt']
    omega
  · rw [multClock_last hlast]
    have hproduct := hbody.product (hcnt'.trans hlast)
    obtain hmul | hmulraw := hop
    · rw [hmul, multExit_mul]
      have hentry := redcLoop_enter .mul b.la b.lb (multBody b.dp)
      have hvalue : (redcEnter .mul b.la b.lb (multBody b.dp)).acc.toNat = redcValue b := by
        rw [redcEnter_acc, if_neg (by decide), hproduct, redcValue, if_neg (by rw [hmul]; decide)]
      rw [hvalue] at hentry
      refine ⟨⟨hbusy, .inl hmul, Nat.zero_le _, hentry⟩, ?_⟩
      have hcnt0 : (redcEnter .mul b.la b.lb (multBody b.dp)).cnt.toNat = 0 := rfl
      simp only [clocksToFin, hp, hmul, redcEnter_phase, hcnt0, if_true]
      omega
    · rw [hmulraw, multExit_mulraw]
      refine ⟨⟨hbusy, fun r hr => ?_⟩, ?_⟩
      · rw [hmulraw] at hr
        exact hproduct.trans (Option.some.inj hr)
      · simp only [clocksToFin, hp, hmulraw, reduceCtorEq, if_false]
        omega

theorem clockedTo_redcClock {b : Block} (hp : b.dp.phase = .redc) (h : datapathInv b) :
    ClockedTo b (redcClock b.dp) := by
  obtain ⟨hbusy, hop, hcnt, hloop⟩ := (datapathInv_redc_iff hp).mp h
  have hbody := hloop.body hcnt
  have hcnt' : (redcBody b.dp).cnt.toNat = b.dp.cnt.toNat + 1 := by rw [redcBody_cnt, cnt_succ hcnt]
  have hp' : (redcBody b.dp).phase = .redc := by rw [redcBody_phase, hp]
  obtain hlt | hlast := Nat.lt_or_eq_of_le hcnt
  · rw [redcClock_of_lt hlt]
    rw [← redcValue_withDatapath b (redcBody b.dp)] at hbody
    refine ⟨(datapathInv_redc_iff (b := { b with dp := redcBody b.dp }) hp').mpr
      ⟨hbusy, hop, hcnt'.trans_le hlt, hbody⟩, ?_⟩
    simp only [clocksToFin, hp, hp', hcnt']
    omega
  · rw [redcClock_last hlast]
    have hresidue := hbody.residue (by omega)
    refine ⟨⟨hbusy, fun r hr => ?_⟩, ?_⟩
    · have hr' : redcValue b % Config.p = r := Option.some.inj ((result_of_redcValue hop).symm.trans hr)
      rw [← hr', ← hresidue]
    · simp only [clocksToFin, hp, hlast]

/-! ## The invariant over every move of the block -/

theorem blockInv_reset : blockInv Block.reset :=
  ⟨⟨fun _ => rfl, nofun, nofun⟩, ⟨⟨.nop, rfl⟩, nofun⟩, fun _ => nofun, rfl⟩

theorem BlockMove.statusInv {b c : Block} (m : BlockMove b c) (h : statusInv b) : statusInv c := by
  obtain ⟨hclear, hset, hdone⟩ := h
  cases m with
  | reset => exact blockInv_reset.1
  | writeStatus v =>
    rw [writeStatus_eq]
    have hdone' (hbusy : b.busy = true) : (if v.getLsbD 1 then false else b.done) = false := by simp [hdone hbusy]
    cases v.getLsbD 2 with
    | false => exact ⟨hclear, hset, hdone'⟩
    | true => exact ⟨fun _ => rfl, nofun, hdone'⟩
  | accept => exact ⟨hclear, hset, fun _ => rfl⟩
  | reject c =>
    refine ⟨nofun, fun _ => ?_, hdone⟩
    cases c with
    | illegalCmd => exact .inl rfl
    | cmdWhileBusy => exact .inr rfl
  | complete => exact ⟨hclear, hset, nofun⟩
  | same | writeIe | writeOpa | writeOpb | mult | redc => exact ⟨hclear, hset, hdone⟩

theorem BlockMove.commandInv {b c : Block} (m : BlockMove b c) (h : commandInv b) : commandInv c := by
  obtain ⟨hlegal, hbusy⟩ := h
  cases m with
  | reset => exact blockInv_reset.2.1
  | writeStatus v => rw [writeStatus_eq]; exact ⟨hlegal, hbusy⟩
  | accept op => exact ⟨⟨op, rfl⟩, fun _ => rfl⟩
  | complete => exact ⟨hlegal, nofun⟩
  | same | writeIe | writeOpa | writeOpb | reject | mult | redc => exact ⟨hlegal, hbusy⟩

theorem BlockMove.resultInv {b c : Block} (m : BlockMove b c) (h : resultInv b) : resultInv c := by
  cases m with
  | reset => exact blockInv_reset.2.2.1
  | writeStatus v => rw [writeStatus_eq]; exact h
  | accept => exact nofun
  | complete =>
    intro _ r hr
    rw [finish_opif, finish_la, finish_lb] at hr
    rw [hr, finish_res_some]
  | same | writeIe | writeOpa | writeOpb | reject | mult | redc => exact h

theorem BlockMove.datapathInv {b c : Block} (m : BlockMove b c) (h : datapathInv b) : datapathInv c := by
  cases m with
  | reset => exact blockInv_reset.2.2.2
  | writeStatus v => rw [writeStatus_eq]; exact h
  | accept op => exact datapathInv_accept op _ b
  | complete => exact rfl
  | mult hp => exact (clockedTo_multClock hp h).1
  | redc hp => exact (clockedTo_redcClock hp h).1
  | same | writeIe | writeOpa | writeOpb | reject => exact h

theorem BlockMove.blockInv {b c : Block} (m : BlockMove b c) (h : blockInv b) : blockInv c := by
  obtain ⟨hstatus, hcommand, hresult, hdatapath⟩ := h
  exact ⟨m.statusInv hstatus, m.commandInv hcommand, m.resultInv hresult, m.datapathInv hdatapath⟩

/-! ## The clocks from acceptance to completion (41_reference_datapath.md R137) -/

theorem clocks_succ (k : Nat) (b : Block) : clocks (k + 1) b = clock (clocks k b) :=
  Function.iterate_succ_apply' clock k b

/-- While a loop has clocks to go, a clock changes the datapath registers alone and takes one of them. -/
theorem clock_of_clocksToFin {b : Block} (h : datapathInv b) (hpos : 0 < clocksToFin b.opif b.dp) :
    ∃ d, clock b = { b with dp := d } ∧ ClockedTo b d := by
  unfold clock
  cases hp : b.dp.phase with
  | idle | fin => simp [clocksToFin, hp] at hpos
  | mult => exact ⟨_, rfl, clockedTo_multClock hp h⟩
  | redc => exact ⟨_, rfl, clockedTo_redcClock hp h⟩

/-- The first clocks of a loop, up to the one that enters FIN. -/
theorem clocks_of_le_clocksToFin {b : Block} (h : datapathInv b) {k : Nat} (hk : k ≤ clocksToFin b.opif b.dp) :
    ∃ d, clocks k b = { b with dp := d } ∧ datapathInv { b with dp := d } ∧
      clocksToFin b.opif d + k = clocksToFin b.opif b.dp := by
  induction k with
  | zero => exact ⟨b.dp, rfl, h, rfl⟩
  | succ k ih =>
    obtain ⟨d, hd, hinv, hleft⟩ := ih (by omega)
    obtain ⟨d', hd', hinv', hleft'⟩ := clock_of_clocksToFin hinv (show 0 < clocksToFin b.opif d by omega)
    refine ⟨d', by rw [clocks_succ, hd, hd'], hinv', ?_⟩
    simp only at hleft'
    omega

/-- With no clock to go, a busy block is in FIN. -/
theorem phase_eq_fin_of_clocksToFin {b : Block} (h : datapathInv b) (hbusy : b.busy = true)
    (hzero : clocksToFin b.opif b.dp = 0) : b.dp.phase = .fin := by
  cases hp : b.dp.phase with
  | idle => exact absurd hp ((busy_iff_of_datapathInv h).mp hbusy)
  | fin => rfl
  | mult =>
    obtain ⟨-, -, hcnt, -⟩ := (datapathInv_mult_iff hp).mp h
    simp only [clocksToFin, hp] at hzero
    omega
  | redc =>
    obtain ⟨-, -, hcnt, -⟩ := (datapathInv_redc_iff hp).mp h
    simp only [clocksToFin, hp] at hzero
    omega

/-- The reference latency is the clocks of the loops and the clock of FIN (70_reset_and_hazards.md R192). -/
theorem referenceLatency_eq (op : Instr) (v : Word) (b : Block) :
    referenceLatency op = clocksToFin op (accept op v b).dp + 1 := by
  cases op <;> rfl

theorem clock_fin {b : Block} (hp : b.dp.phase = .fin) : clock b = complete b := by
  rw [clock, hp]

/-! ## The statements -/

/-- Settles O39: at reset no flag is set and no command is in flight. -/
theorem invariantHoldsAtReset : Obligations.InvariantHoldsAtReset := blockInv_reset

/-- Settles O40: each move that a step can make of the block keeps each part of the invariant; the loops' parts by one
iteration of each loop. -/
theorem invariantIsKeptByEveryStep : Obligations.InvariantIsKeptByEveryStep :=
  fun _ _ h hstep => (step_cases hstep).1.blockInv h

/-- Settles O41: the invariant of the next state says it. -/
theorem statusInvariants : Obligations.StatusInvariants := by
  intro s t h hstep
  obtain ⟨⟨hclear, hset, hdone⟩, -, -, hdatapath⟩ := invariantIsKeptByEveryStep s t h hstep
  refine ⟨hclear, hdone, ?_, busy_iff_of_datapathInv hdatapath⟩
  cases herr : t.blk.err with
  | false => rw [hclear herr]; decide
  | true => obtain hcode | hcode := hset herr <;> rw [hcode] <;> decide

/-- Settles O45: acceptance establishes the loops' invariant, which each clock keeps up to FIN, where ACC is the result
and the clock is the completion. -/
theorem referenceDatapathComputesTheResult : Obligations.ReferenceDatapathComputesTheResult := by
  intro i b hidle c
  have hc : c = accept i (encode i) b := issueLegal_idle hidle
  clear_value c
  have hinv : datapathInv c := by
    rw [hc]
    exact datapathInv_accept i _ b
  have hbusy : c.busy = true := by rw [hc, accept_busy]
  have hlatency : referenceLatency i = clocksToFin c.opif c.dp + 1 := by
    rw [hc, accept_opif]
    exact referenceLatency_eq i _ b
  obtain ⟨d, hd, hfinInv, hleft⟩ := clocks_of_le_clocksToFin hinv le_rfl
  have hfin : d.phase = .fin :=
    phase_eq_fin_of_clocksToFin (b := { c with dp := d }) hfinInv hbusy (by simpa using hleft)
  have hlast : clocks (referenceLatency i) c = complete { c with dp := d } := by
    rw [hlatency, clocks_succ, hd, clock_fin hfin]
  have hfinish : complete { c with dp := d } = finish (result c.opif c.la.toNat c.lb.toNat) { c with dp := d } :=
    complete_busy hbusy
  refine ⟨fun k hk => ?_, ?_, fun r hr => ?_, ?_, ?_, ?_⟩
  · obtain ⟨e, he, -⟩ := clocks_of_le_clocksToFin hinv (k := k) (by omega)
    rw [he]
    exact ⟨hbusy, by rw [hc, accept_res]⟩
  · rw [hlatency, Nat.add_sub_cancel, hd]
    exact hfin
  · rw [hlatency, Nat.add_sub_cancel, hd]
    refine ((datapathInv_fin_iff (b := { c with dp := d }) hfin).mp hfinInv).2 r ?_
    rw [← hr, hc, accept_opif, accept_la, accept_lb, operandA_toNat, operandB_toNat]
  · rw [hlast, hfinish, finish_busy]
  · rw [hlast, hfinish, finish_done]
  · rw [hlast, hfinish, complete_busy hbusy]
    rfl

end Sys2Proof.Machine
end

section
/-! PROOFS. The agents' turns (20_memory.md R52): what a planned turn does, how a step ends a command in flight or keeps
it, and what a step leaves of LASTCMD; then the statements. -/

namespace Sys2Proof.Machine

open Sys2Proof.Claims

/-! ## One turn -/

theorem step_planned {s : State} {t : Turn} {ts : List Turn} (h : s.turns = t :: ts) :
    step s = runTurn t { s with turns := ts } := by
  simp only [step, takeTurn, h]

/-- A busy block with no turn planned completes (40_arith_commands.md R108). -/
theorem step_default_busy {s : State} (h : s.turns = []) (hbusy : s.blk.busy = true) :
    step s = .next (completeStep s) := by
  simp [step, takeTurn, h, defaultTurn, hbusy, runTurn]

theorem exists_step_eq_next (s : State) : ∃ t, step s = .next t := by
  unfold step takeTurn
  split
  · obtain ⟨u, hu, -⟩ := runTurn_spec (defaultTurn s) s
    exact ⟨u, hu⟩
  · next t ts _ =>
    obtain ⟨u, hu, -⟩ := runTurn_spec t { s with turns := ts }
    exact ⟨u, hu⟩

/-- A run of one more step. -/
theorem run_succ {s t : State} (h : step s = .next t) (k : Nat) :
    Host.Core.run core (k + 1) s = Host.Core.run core k t := by
  have hcore : core.step s = .next t := h
  simp only [Host.Core.run, hcore]

/-! ## One move of a busy block -/

/-- A move ends the command in flight by its completion or a reset, or keeps it with its latches. -/
theorem BlockMove.command_in_flight {b c : Block} (m : BlockMove b c) (hbusy : b.busy = true) :
    (c.busy = false ∧ (c = Machine.complete b ∨ atReset c)) ∨
    (c.busy = true ∧ c.opif = b.opif ∧ c.la = b.la ∧ c.lb = b.lb) := by
  cases m with
  | reset => exact .inl ⟨rfl, .inr atReset_reset⟩
  | complete => exact .inl ⟨rfl, .inl (complete_busy hbusy).symm⟩
  | accept op hidle => simp [hidle] at hbusy
  | writeStatus v => rw [writeStatus_eq]; exact .inr ⟨hbusy, rfl, rfl, rfl⟩
  | same | writeIe | writeOpa | writeOpb | reject | mult | redc => exact .inr ⟨hbusy, rfl, rfl, rfl⟩

/-- A move keeps LASTCMD, or resets the block, or accepts a command and sets LASTCMD to its word. -/
theorem BlockMove.lastcmd_cases {b c : Block} (m : BlockMove b c) :
    c.lastcmd = b.lastcmd ∨ atReset c ∨ (b.busy = false ∧ c.busy = true ∧ c.lastcmd = encode c.opif) := by
  cases m with
  | reset => exact .inr (.inl atReset_reset)
  | accept op hidle => exact .inr (.inr ⟨hidle, rfl, rfl⟩)
  | writeStatus v => exact .inl (writeStatus_lastcmd v b)
  | same | writeIe | writeOpa | writeOpb | reject | complete | mult | redc => exact .inl rfl

/-! ## A run until the command in flight ends (40_arith_commands.md R108) -/

/-- Both blocks are busy with the same operation and the same latches. -/
def SameInFlight (b c : Block) : Prop := c.busy = true ∧ c.opif = b.opif ∧ c.la = b.la ∧ c.lb = b.lb

/-- After `k` steps, all with the command of `s` in flight, one step ends it by its completion or a reset. -/
def EndsAfter (k : Nat) (s : State) : Prop :=
  ∃ u t : State, Host.Core.run core k s = .next u ∧ step u = .next t ∧
    (∀ j, j ≤ k → ∃ w : State, Host.Core.run core j s = .next w ∧ SameInFlight s.blk w.blk) ∧
    t.blk.busy = false ∧ (t.blk = complete u.blk ∨ atReset t.blk)

theorem endsAfter_zero {s t : State} (hbusy : s.blk.busy = true) (h : step s = .next t) (hidle : t.blk.busy = false)
    (hend : t.blk = complete s.blk ∨ atReset t.blk) : EndsAfter 0 s := by
  refine ⟨s, t, rfl, h, fun j hj => ⟨s, ?_, hbusy, rfl, rfl, rfl⟩, hidle, hend⟩
  rw [Nat.le_zero.mp hj]
  rfl

/-- A step that keeps the command in flight is one more step before its end. -/
theorem EndsAfter.succ {k : Nat} {s t : State} (hbusy : s.blk.busy = true) (h : step s = .next t)
    (hsame : SameInFlight s.blk t.blk) (hend : EndsAfter k t) : EndsAfter (k + 1) s := by
  obtain ⟨-, hop, hla, hlb⟩ := hsame
  obtain ⟨u, v, hrun, hstep, hway, hlast⟩ := hend
  refine ⟨u, v, by rw [run_succ h, hrun], hstep, fun j hj => ?_, hlast⟩
  cases j with
  | zero => exact ⟨s, rfl, hbusy, rfl, rfl, rfl⟩
  | succ j =>
    obtain ⟨w, hw, hwbusy, hwop, hwla, hwlb⟩ := hway j (by omega)
    exact ⟨w, by rw [run_succ h, hw], hwbusy, hwop.trans hop, hwla.trans hla, hwlb.trans hlb⟩

/-- By induction on the planned turns: each one ends the command or keeps it, and without one the default turn
completes it. -/
theorem exists_endsAfter (ts : List Turn) {s : State} (hturns : s.turns = ts) (hbusy : s.blk.busy = true) :
    ∃ k, k ≤ ts.length ∧ EndsAfter k s := by
  induction ts generalizing s with
  | nil =>
    have hidle : (complete s.blk).busy = false := by rw [complete_busy hbusy, finish_busy]
    exact ⟨0, le_rfl, endsAfter_zero hbusy (step_default_busy hturns hbusy) hidle (.inl rfl)⟩
  | cons t ts ih =>
    obtain ⟨u, hu⟩ := exists_step_eq_next s
    obtain ⟨hmove, hrest⟩ := step_cases hu
    obtain ⟨hidle, hend⟩ | hsame := hmove.command_in_flight hbusy
    · exact ⟨0, Nat.zero_le _, endsAfter_zero hbusy hu hidle hend⟩
    · obtain ⟨k, hk, hends⟩ := ih (by rw [hrest, hturns, List.tail_cons]) hsame.1
      exact ⟨k + 1, Nat.succ_le_succ hk, hends.succ hbusy hu hsame⟩

/-! ## The statements -/

/-- Settles O3: the turn sets the block to its reset state and touches nothing around it but the response port. -/
theorem hardResetStep_atReset : Obligations.HardResetStep :=
  fun _ _ hturns => ⟨_, step_planned hturns, atReset_reset, rfl, rfl, rfl⟩

/-- Settles O20: the completion turn is the completion of the block, enabled or not. -/
theorem completionEnabledWhenBusy : Obligations.CompletionEnabledWhenBusy := by
  refine fun s ts hturns => ⟨fun hbusy => ⟨_, step_planned hturns, rfl, ?_, ?_, rfl, rfl, rfl⟩, fun hidle => ?_⟩
  · rw [completeStep, State.quiet_blk, State.onBlock_blk, complete_busy hbusy, finish_busy]
  · rw [completeStep, State.quiet_blk, State.onBlock_blk, complete_busy hbusy, finish_done]
  · rw [step_planned hturns, runTurn, completeStep, State.onBlock, complete_idle hidle, State.quiet]

/-- Settles O49: a clock's four phases, and the planned clock turn. -/
theorem referenceClockFrame : Obligations.ReferenceClockFrame := by
  refine ⟨fun b => ⟨fun hp => ?_, clock_fin, fun hp => ?_⟩,
    fun s ts hturns => ⟨_, step_planned hturns, rfl, rfl, rfl, rfl⟩⟩
  · unfold clock
    split
    · rfl
    · rfl
    · rfl
    · next hfin => exact absurd hfin hp
  · rw [clock, hp]

/-- Settles O21: the run ends by the first planned turn that completes or resets, else by the default turn. -/
theorem commandInFlightEnds : Obligations.CommandInFlightEnds := by
  intro s hbusy
  obtain ⟨k, hk, u, t, hends⟩ := exists_endsAfter s.turns rfl hbusy
  exact ⟨k, u, t, hk, hends⟩

/-- Settles O31, by the move that the step makes of the block. -/
theorem lastcmdIsTheLastAccepted : Obligations.LastcmdIsTheLastAccepted :=
  fun _ _ h => (step_cases h).1.lastcmd_cases

/-- Settles O38: every turn, command and transaction has an outcome that goes on. -/
theorem everyStepGoesOn : Obligations.EveryStepGoesOn := by
  refine ⟨exists_step_eq_next, fun i s => ⟨_, exec_eq_issueLegal i s⟩, fun t s => ?_⟩
  obtain ⟨b, r, ht, -⟩ := transact_spec t s
  exact ⟨_, ht, rfl⟩

end Sys2Proof.Machine
end

section
/-! PROOFS. Byte streams of command words: a word is its four lanes, and a stream decodes as the word of its first four
bytes; then the statements. -/

namespace Sys2Proof.Machine

/-! ## A word and its lanes (20_memory.md R58) -/

theorem append_byte_toNat {n : Nat} (x : BitVec n) (b : Byte) : (x ++ b).toNat = x.toNat * 2 ^ 8 + b.toNat := by
  rw [BitVec.toNat_append, ← Nat.shiftLeft_add_eq_or_of_lt b.isLt, Nat.shiftLeft_eq]

theorem wordOfBytes_toNat (b0 b1 b2 b3 : Byte) : (wordOfBytes b0 b1 b2 b3).toNat =
    ((b3.toNat * 2 ^ 8 + b2.toNat) * 2 ^ 8 + b1.toNat) * 2 ^ 8 + b0.toNat := by
  rw [wordOfBytes, append_byte_toNat, append_byte_toNat, append_byte_toNat]

/-- A word is its four lanes, lane 0 first. -/
theorem wordOfBytes_eq_iff (b0 b1 b2 b3 : Byte) (w : Word) :
    wordOfBytes b0 b1 b2 b3 = w ↔ [b0, b1, b2, b3] = bytesOfWord w := by
  have h0 := b0.isLt
  have h1 := b1.isLt
  have h2 := b2.isLt
  have h3 := b3.isLt
  have hw := w.isLt
  simp only [bytesOfWord, List.cons.injEq, and_true, ← BitVec.toNat_inj, wordOfBytes_toNat, laneByte_toNat, slice,
    Nat.shiftRight_eq_div_pow]
  omega

/-! ## The decoder of byte streams (30_encoding.md R77) -/

/-- The stream of four bytes or more decodes as the word of its first four. -/
theorem decodeBytes_eq_ok_iff (b0 b1 b2 b3 : Byte) (bs rest : List Byte) (i : Instr) :
    decodeBytes (b0 :: b1 :: b2 :: b3 :: bs) = .ok (i, rest) ↔ wordOfBytes b0 b1 b2 b3 = encode i ∧ bs = rest := by
  rw [← decode_eq_ok_iff, decodeBytes]
  cases decode (wordOfBytes b0 b1 b2 b3) <;> simp

/-- No shorter stream decodes. -/
theorem exists_four_bytes_of_decodeBytes {bs rest : List Byte} {i : Instr} (h : decodeBytes bs = .ok (i, rest)) :
    ∃ b0 b1 b2 b3 bs', bs = b0 :: b1 :: b2 :: b3 :: bs' := by
  unfold decodeBytes at h
  split at h
  · exact ⟨_, _, _, _, _, rfl⟩
  · cases h

/-! ## The statements -/

/-- Settles O7: a stream that decodes has four bytes, which are the lanes of a word, and the word is the command's. -/
theorem byteDecodingIsInverseToEncoding : Obligations.ByteDecodingIsInverseToEncoding := by
  intro bs i rest
  constructor
  · intro h
    obtain ⟨b0, b1, b2, b3, bs', rfl⟩ := exists_four_bytes_of_decodeBytes h
    obtain ⟨hword, rfl⟩ := (decodeBytes_eq_ok_iff ..).mp h
    rw [encodeBytes, ← (wordOfBytes_eq_iff ..).mp hword]
    rfl
  · rintro rfl
    exact (decodeBytes_eq_ok_iff ..).mpr ⟨(wordOfBytes_eq_iff ..).mpr rfl, rfl⟩

/-- Settles O5, by evaluating the decoders. -/
theorem tabledWordsDecode : Obligations.TabledWordsDecode := by
  unfold Obligations.TabledWordsDecode
  decide

end Sys2Proof.Machine
end

section
/-! PROOFS. The frames of issue and completion over the register window, byte by byte; then the statements on them, on
the STATUS write and on the product. -/

namespace Sys2Proof.Machine

open Sys2Proof.Claims

/-! ## The frames over the window (20_memory.md R58) -/

theorem offsetOf_of_regOf {off : BitVec 8} {r : Reg} (h : regOf off = some r) : offsetOf r = off.toNat := by
  have all : ∀ a : BitVec 8, (regOf a).all (fun g => offsetOf g == a.toNat) = true := by decide
  simpa [h] using all off

/-- A byte of the window reads the same in two blocks if the register that stands there does. -/
theorem windowByte_congr {b c : Block} {off : BitVec 8}
    (h : ∀ r, offsetOf r = off.toNat - off.toNat % 4 → readReg c r = readReg b r) :
    windowByte c off = windowByte b off := by
  unfold windowByte
  cases hr : regOf (off &&& 0xFC) with
  | none => rfl
  | some r => rw [Option.map_some, Option.map_some, h r (by rw [offsetOf_of_regOf hr, and_0xFC_toNat])]

/-- Blocks that differ in CMD and STATUS alone read the same at every other register. -/
theorem readReg_of_sameButCommandAndStatus {b c : Block} (h : sameButCommandAndStatus b c) {r : Reg} (hcmd : r ≠ .cmd)
    (hstatus : r ≠ .status) : readReg c r = readReg b r := by
  obtain ⟨hopa, hopb, hres, hie⟩ := h
  cases r with
  | id => rfl
  | ctrl => rw [readReg, readReg, ctrlWord, ctrlWord, hie]
  | cmd => exact absurd rfl hcmd
  | status => exact absurd rfl hstatus
  | opa i => rw [readReg, readReg, hopa]
  | opb i => rw [readReg, readReg, hopb]
  | res j => rw [readReg, readReg, hres]

/-- Completion reads differently at STATUS and RES alone, and with NOP in flight at STATUS alone. -/
theorem readReg_complete {b : Block} (hbusy : b.busy = true) {r : Reg} (hstatus : r ≠ .status)
    (hres : ∀ j, r = .res j → b.opif = .nop) : readReg (complete b) r = readReg b r := by
  rw [complete_busy hbusy]
  cases r with
  | status => exact absurd rfl hstatus
  | res j => rw [hres j rfl]; rfl
  | id | ctrl | cmd | opa | opb => rfl

/-! ## The statements -/

/-- Settles O17: the issue writes no register but CMD and STATUS, and those two stand at 0x008 to 0x00F. -/
theorem commandIssueFrame : Obligations.CommandIssueFrame := by
  intro i s t h
  rw [exec_eq_issueLegal] at h
  cases h
  refine ⟨fun off hoff => windowByte_congr fun r hr => ?_, fun hidle => ?_, fun hbusy => ?_, ?_, rfl, rfl, rfl⟩
  · have hcmd : r ≠ .cmd := by
      rintro rfl
      simp only [offsetOf] at hr
      omega
    have hstatus : r ≠ .status := by
      rintro rfl
      simp only [offsetOf] at hr
      omega
    exact readReg_of_sameButCommandAndStatus (issueLegal_frame i s.blk) hcmd hstatus
  · simp [issueLegal_idle hidle]
  · simp [issueLegal_busy hbusy]
  · cases hb : s.blk.busy with
    | false => simp [issueLegal_idle hb]
    | true => simp [issueLegal_busy hb, hb]

/-- Settles O18: completion writes no register but STATUS and RES, and RES stands at 0x0C0 and above. -/
theorem completionFrame : Obligations.CompletionFrame := by
  intro b hbusy
  refine ⟨fun off hstatus hres => windowByte_congr fun r hr => readReg_complete hbusy ?_ ?_, ?_⟩
  · rintro rfl
    simp only [offsetOf] at hr
    omega
  · rintro j rfl
    simp only [offsetOf] at hr
    exact hres.resolve_left (by omega)
  · rw [complete_busy hbusy]
    exact ⟨rfl, rfl, rfl, rfl, rfl⟩

/-- Settles O34, by the write's effect as one update of DONE, ERR and ECODE. -/
theorem statusWriteClears : Obligations.StatusWriteClears := by
  intro s v
  refine ⟨_, transact_write_status v s, rfl, ?_⟩
  dsimp only
  rw [writeStatus_eq]
  exact ⟨rfl, fun h => if_pos h, fun h => if_neg (ne_true_of_eq_false h), fun h => ⟨if_pos h, if_pos h⟩,
    fun h => ⟨if_neg (ne_true_of_eq_false h), if_neg (ne_true_of_eq_false h)⟩⟩

/-- Settles O24: multiplication modulo p. -/
theorem productLaws : Obligations.ProductLaws := by
  intro a b c
  unfold resultMul
  refine ⟨by rw [Nat.mul_comm], ?_, Nat.mul_mod a b Config.p, by rw [Nat.mul_one], by rw [Nat.mul_zero, Nat.zero_mod]⟩
  rw [Nat.mod_mul_mod, Nat.mul_mod_mod, Nat.mul_assoc]

end Sys2Proof.Machine
end

section
/-! PROOFS. The host's side (30_encoding.md R78, R79): what the host does with the response of each statement, the
statement that issues a command, and the run of a load of eight operand words; then the statements. -/

namespace Sys2Proof.Machine

open Sys2Proof.Claims

/-! ## One statement -/

/-- A statement with a transaction performs it, and then what the host does with its response. -/
theorem runStmt_of_transact {st : Stmt} {x : Txn} {s u : State} (hx : stmtTxn s.master.vars st = some x)
    (hu : transact x s = .next u) : runStmt st s = .next (afterResponse st u) := by
  simp only [runStmt, hx, hu, mapNext_next]

theorem runStmt_of_hostOnly {st : Stmt} {s : State} (hx : stmtTxn s.master.vars st = none) :
    runStmt st s = .next (hostOnly st s) := by
  simp only [runStmt, hx]

theorem stmtTxn_wr_lit (vars : List (Var × Int)) (off : BitVec 8) (n : Nat) :
    stmtTxn vars (.wr off (.lit n)) = some (writeTxn off (BitVec.ofNat 32 n)) := by
  simp only [stmtTxn, evalExpr, Option.map_some, BitVec.ofInt_natCast]

/-! ## What the host does with a response (30_encoding.md R78) -/

/-- Only a bare access does not stop on BUSERR (log 1). -/
theorem afterResponse_busErr {st : Stmt} {s : State} (hst : ∀ x, st ≠ .access x) (hr : s.resp = some .busErr) :
    afterResponse st s = s.stopHost .busErr := by
  cases st with
  | access x => exact absurd rfl (hst x)
  | wr | rd | poll | check | assign | cmd => simp only [afterResponse, hr]

/-- No statement does more when its transaction is answered OK. -/
theorem afterResponse_ok {s : State} (st : Stmt) (hr : s.resp = some .ok) : afterResponse st s = s := by
  cases st <;> simp only [afterResponse, hr]

theorem afterResponse_wr {s : State} (off : BitVec 8) (e : Expr) (hr : s.resp ≠ some .busErr) :
    afterResponse (.wr off e) s = s := by
  cases h : s.resp with
  | none => simp only [afterResponse, h]
  | some r =>
    cases r with
    | busErr => exact absurd h hr
    | data | ok => simp only [afterResponse, h]

theorem afterResponse_rd {s : State} (off : BitVec 8) (x : Var) {w : Word} (hr : s.resp = some (.data w)) :
    afterResponse (.rd off x) s = s.setHostVar x w.toNat := by
  simp only [afterResponse, hr]

theorem afterResponse_poll {s : State} (off : BitVec 8) (mask v : Word) {w : Word} (hr : s.resp = some (.data w)) :
    afterResponse (.poll off mask v) s = if w &&& mask = v then s else s.pushStmt (.poll off mask v) := by
  simp only [afterResponse, hr]

/-! ## Statements of the host alone (30_encoding.md R78) -/

theorem hostOnly_check {s : State} {x y : Expr} {a b : Int} (ha : evalExpr s.master.vars x = some a)
    (hb : evalExpr s.master.vars y = some b) :
    hostOnly (.check x y) s = if a = b then s.quiet else s.quiet.stopHost .checkFailed := by
  simp only [hostOnly, ha, hb]

theorem hostOnly_assign {s : State} {e : Expr} {a : Int} (x : Var) (ha : evalExpr s.master.vars e = some a) :
    hostOnly (.assign x e) s = s.quiet.setHostVar x a := by
  simp only [hostOnly, ha]

/-! ## The statement that issues a command -/

/-- A statement whose transaction is the CMD write of a command runs that command (20_memory.md R54). -/
theorem runStmt_cmd_write {st : Stmt} {i : Instr} {s : State}
    (hx : stmtTxn s.master.vars st = some (writeTxn 0x008 (encode i))) :
    runStmt st s = mapNext (State.respond .ok) (exec i s) := by
  rw [runStmt_of_transact hx (transact_write_encode i s), afterResponse_ok st rfl, exec_eq_issueLegal]
  rfl

/-- A step of such a statement in the host's turn, planned or by default. -/
theorem step_cmd_write {s : State} {ts : List Turn} {st : Stmt} {rest : List Stmt} {i : Instr}
    (hstop : s.master.stop = none) (hprog : s.master.program = st :: rest)
    (hx : stmtTxn s.master.vars st = some (writeTxn 0x008 (encode i)))
    (hturns : s.turns = .host :: ts ∨ (s.turns = [] ∧ ts = [] ∧ s.blk.busy = false)) :
    step s = mapNext (State.respond .ok)
      (exec i { s with turns := ts, master := { s.master with program := rest } }) :=
  (step_host hstop hprog hturns).trans (runStmt_cmd_write hx)

/-! ## A load of operand words (30_encoding.md R79) -/

/-- One of the two operand arrays of the block: the window offset of its first word, its value and its update, and that
a write to the window stores a word of it. -/
structure OperandArray where
  base : Nat
  get : Block → Vector Word 8
  put : Vector Word 8 → Block → Block
  get_put : ∀ X b, get (put X b) = X
  put_put : ∀ X Y b, put X (put Y b) = put X b
  put_get : ∀ b, put (get b) b = b
  put_busy : ∀ X b, (put X b).busy = b.busy
  write : ∀ (i : Fin 8) (v : Word) (s : State), transact (writeTxn (BitVec.ofNat 8 (base + 4 * i.val)) v) s =
    .next { s with blk := put ((get s.blk).set i v) s.blk, resp := some .ok }

def opaArray : OperandArray where
  base := 0x040
  get b := b.opa
  put X b := { b with opa := X }
  get_put _ _ := rfl
  put_put _ _ _ := rfl
  put_get _ := rfl
  put_busy _ _ := rfl
  write := transact_write_opa

def opbArray : OperandArray where
  base := 0x080
  get b := b.opb
  put X b := { b with opb := X }
  get_put _ _ := rfl
  put_put _ _ _ := rfl
  put_get _ := rfl
  put_busy _ _ := rfl
  write := transact_write_opb

/-- The write of word `i` of a load. -/
def loadStmt (R : OperandArray) (e : Expr) (i : Fin 8) : Stmt :=
  .wr (BitVec.ofNat 8 (R.base + 4 * i.val)) (wordExpr e i.val)

theorem expand_lda (e : Expr) : expand (.lda e) = (List.finRange 8).map (loadStmt opaArray e) := rfl

theorem expand_ldb (e : Expr) : expand (.ldb e) = (List.finRange 8).map (loadStmt opbArray e) := rfl

/-- The next `n` turns are the host's and leave the planned turns `ts`: they are planned, or the default ones of an idle
block (log 2). -/
def HostTurns (n : Nat) (s : State) (ts : List Turn) : Prop :=
  s.turns = List.replicate n .host ++ ts ∨ (s.turns = [] ∧ ts = [] ∧ s.blk.busy = false)

/-- An array after the words with the indices `is` are stored from `X`. -/
def storeWords (X : Vector Word 8) (is : List (Fin 8)) (Y : Vector Word 8) : Vector Word 8 :=
  is.foldl (fun Z (i : Fin 8) => Z.set i X[i]) Y

theorem storeWords_getElem (X : Vector Word 8) (is : List (Fin 8)) (Y : Vector Word 8) (j : Fin 8) :
    (storeWords X is Y)[j] = if j ∈ is then X[j] else Y[j] := by
  induction is generalizing Y with
  | nil => rfl
  | cons i is ih =>
    rw [storeWords, List.foldl_cons, ← storeWords, ih]
    by_cases hj : j = i
    · simp [hj]
    · have hij : i.val ≠ j.val := fun h => hj (Fin.ext h.symm)
      simp [hj, hij]

theorem storeWords_finRange (X Y : Vector Word 8) : storeWords X (List.finRange 8) Y = X :=
  Vector.ext fun i hi => (storeWords_getElem X _ Y ⟨i, hi⟩).trans (if_pos (List.mem_finRange _))

/-- The host's turn that comes next, and what is left of its turns after it. -/
theorem HostTurns.next {n : Nat} {s : State} {ts : List Turn} (h : HostTurns (n + 1) s ts) :
    ∃ ts', (s.turns = .host :: ts' ∨ (s.turns = [] ∧ ts' = [] ∧ s.blk.busy = false)) ∧
      ∀ t : State, t.turns = ts' → t.blk.busy = s.blk.busy → HostTurns n t ts := by
  obtain h | ⟨h, hts, hidle⟩ := h
  · rw [List.replicate_succ, List.cons_append] at h
    exact ⟨_, .inl h, fun t ht _ => .inl ht⟩
  · exact ⟨[], .inr ⟨h, rfl, hidle⟩, fun t ht hb => .inr ⟨ht, hts, hb.trans hidle⟩⟩

/-- One host turn performs one write of a load. -/
theorem step_loadStmt (R : OperandArray) {e : Expr} {v n : Nat} {i : Fin 8} {s : State} {ts : List Turn}
    {rest : List Stmt} (he : evalExpr s.master.vars e = some (v : Int)) (hstop : s.master.stop = none)
    (hprog : s.master.program = loadStmt R e i :: rest) (hturns : HostTurns (n + 1) s ts) :
    ∃ t, step s = .next t ∧ t.blk = R.put ((R.get s.blk).set i (words 8 v)[i]) s.blk ∧
      t.master = { s.master with program := rest } ∧ HostTurns n t ts := by
  obtain ⟨ts', hnext, hleft⟩ := hturns.next
  have hword : BitVec.ofNat 32 (slice v (32 * i.val + 31) (32 * i.val)) = (words 8 v)[i] := by simp [words]
  have hx := stmtTxn_wordExpr he (BitVec.ofNat 8 (R.base + 4 * i.val)) i.val
  rw [hword] at hx
  have hrun := runStmt_of_transact
    (s := { s with turns := ts', master := { s.master with program := rest } }) hx (R.write i (words 8 v)[i] _)
  rw [afterResponse_ok _ rfl] at hrun
  exact ⟨_, (step_host hstop hprog hnext).trans hrun, rfl, rfl, hleft _ rfl (R.put_busy _ _)⟩

/-- The host turns of a load store its words, by induction on the words still to store. -/
theorem run_loadStmts (R : OperandArray) {e : Expr} {v : Nat} (is : List (Fin 8)) {s : State} {ts : List Turn}
    {rest : List Stmt} (he : evalExpr s.master.vars e = some (v : Int)) (hstop : s.master.stop = none)
    (hprog : s.master.program = is.map (loadStmt R e) ++ rest) (hturns : HostTurns is.length s ts) :
    ∃ t, Host.Core.run core is.length s = .next t ∧ t.blk = R.put (storeWords (words 8 v) is (R.get s.blk)) s.blk ∧
      t.master = { s.master with program := rest } ∧ t.turns = ts := by
  induction is generalizing s with
  | nil =>
    refine ⟨s, rfl, (R.put_get _).symm, by rw [← show s.master.program = rest from hprog], ?_⟩
    obtain h | ⟨h, hts, -⟩ := hturns
    · exact h
    · rw [h, hts]
  | cons i is ih =>
    obtain ⟨u, hu, hblk, hmaster, hturns'⟩ := step_loadStmt R he hstop hprog hturns
    obtain ⟨t, ht, htblk, htmaster, htturns⟩ := ih (s := u) (by rw [hmaster]; exact he) (by rw [hmaster]; exact hstop)
      (by rw [hmaster]; rfl) hturns'
    refine ⟨t, by rw [List.length_cons, run_succ hu, ht], ?_, by rw [htmaster, hmaster], htturns⟩
    rw [htblk, hblk, R.get_put, R.put_put, storeWords, storeWords, List.foldl_cons]

/-- The load of a 256-bit value. -/
theorem run_load (R : OperandArray) {e : Expr} {v : Nat} {s : State} {ts : List Turn} {rest : List Stmt}
    (he : evalExpr s.master.vars e = some (v : Int)) (hstop : s.master.stop = none)
    (hprog : s.master.program = (List.finRange 8).map (loadStmt R e) ++ rest) (hturns : HostTurns 8 s ts) :
    ∃ t, Host.Core.run core 8 s = .next t ∧ t.blk = R.put (words 8 v) s.blk ∧
      t.master = { s.master with program := rest } ∧ t.turns = ts := by
  have h := run_loadStmts R (List.finRange 8) he hstop hprog (by simpa using hturns)
  rwa [storeWords_finRange, List.length_finRange] at h

/-! ## The statements -/

/-- Settles O12: each of the three statements has the CMD write of the command's word as its transaction. -/
theorem stepRunsTheWrittenCommand : Obligations.StepRunsTheWrittenCommand := by
  refine ⟨fun s ts st rest v i hd hstop hprog hst hturns => ?_, fun s w i hd hw => ?_⟩
  · obtain rfl := eq_encode_of_decode hd
    refine step_cmd_write hstop hprog ?_ hturns
    obtain rfl | rfl | rfl := hst
    · rfl
    · rw [stmtTxn_wr_lit, BitVec.ofNat_toNat, BitVec.setWidth_eq]
    · rfl
  · refine step_cmd_write (s := s.withFetchWord 32 w) rfl rfl ?_ (.inl rfl)
    rw [Nat.mod_eq_of_lt hw, eq_encode_of_decode hd]
    rfl

/-- Settles O46, statement by statement: its transaction, and what the host does with the response. -/
theorem hostStatements : Obligations.HostStatements := by
  intro s ts st rest hturns hstop hprog s0
  have hstep : step s = runStmt st s0 := step_host hstop hprog (.inl hturns)
  have hvars : s0.master.vars = s.master.vars := rfl
  clear_value s0
  rw [hstep]
  refine ⟨?_, ?_, ?_, ?_, ?_, ?_, ?_⟩
  · rintro off n rfl - u hu
    have hrun := runStmt_of_transact (stmtTxn_wr_lit _ off n) hu
    rw [hrun]
    refine ⟨fun hr => ?_, fun hr => ?_⟩
    · exact congrArg _ (afterResponse_busErr nofun hr)
    · rw [afterResponse_wr off _ hr]
  · rintro off x u rfl hu
    have hrun : runStmt (.rd off x) s0 = _ := runStmt_of_transact rfl hu
    rw [hrun]
    refine ⟨fun hr => ?_, fun w hr => ?_⟩
    · exact congrArg _ (afterResponse_busErr nofun hr)
    · rw [afterResponse_rd off x hr]
  · rintro off mask v u rfl hu
    have hrun : runStmt (.poll off mask v) s0 = _ := runStmt_of_transact rfl hu
    rw [hrun]
    refine ⟨fun hr => ?_, fun w hr hmatch => ?_, fun w hr hmatch => ?_⟩
    · exact congrArg _ (afterResponse_busErr nofun hr)
    · rw [afterResponse_poll off mask v hr, if_pos hmatch]
    · rw [afterResponse_poll off mask v hr, if_neg hmatch]
  · rintro x y a b rfl ha hb
    rw [← hvars] at ha hb
    rw [runStmt_of_hostOnly rfl, hostOnly_check ha hb]
    exact ⟨fun h => by rw [if_pos h], fun h => by rw [if_neg h]⟩
  · rintro x e a rfl ha
    rw [← hvars] at ha
    rw [runStmt_of_hostOnly rfl, hostOnly_assign x ha]
  · rintro t rfl
    obtain ⟨b, r, ht, -⟩ := transact_spec t s0
    rw [runStmt_of_transact rfl ht, ht]
    rfl
  · rintro i rfl
    rw [runStmt_of_transact rfl (transact_write_encode i s0), transact_write_encode, afterResponse_ok _ rfl]

/-- Settles O47: both expansions are loads of an operand array. -/
theorem loadPseudoInstructions : Obligations.LoadPseudoInstructions := by
  intro s ts e v rest _ he hstop hturns
  rw [expand_lda, expand_ldb]
  exact ⟨fun hprog => run_load opaArray he hstop hprog hturns, fun hprog => run_load opbArray he hstop hprog hturns⟩

end Sys2Proof.Machine
end

section
/-! PROOFS. Several blocks on one platform (60_exceptions.md R173): a step and an access each replace the state of at
most one block of the list; then the statement. -/

namespace Sys2Proof.Machine

/-- The platform with the state of its block `k` replaced. -/
def setState (k : Nat) (q : Placed) (t : State) (P : Platform) : Platform := P.set k { q with st := t }

theorem setState_length (k : Nat) (q : Placed) (t : State) (P : Platform) : (setState k q t P).length = P.length :=
  List.length_set

theorem setState_other {k j : Nat} (h : j ≠ k) (q : Placed) (t : State) (P : Platform) :
    (setState k q t P)[j]? = P[j]? :=
  List.getElem?_set_ne h.symm

theorem setState_self {k : Nat} {q : Placed} {P : Platform} (h : P[k]? = some q) (t : State) :
    (setState k q t P)[k]? = some { q with st := t } :=
  List.getElem?_set_self (List.getElem?_eq_some_iff.mp h).1

/-! ## A step of one block -/

/-- A step of block `k` is that block's own step. -/
theorem platformStep_of_getElem? {k : Nat} {P : Platform} {q : Placed} {t : State} (hq : P[k]? = some q)
    (ht : step q.st = .next t) : platformStep k P = .next (setState k q t P) := by
  induction P generalizing k with
  | nil => cases hq
  | cons r P ih =>
    cases k with
    | zero =>
      cases hq
      rw [platformStep, ht]
      rfl
    | succ k =>
      rw [platformStep, ih hq]
      rfl

/-- A step of no block changes nothing. -/
theorem platformStep_of_none {k : Nat} {P : Platform} (h : P[k]? = none) : platformStep k P = .next P := by
  induction P generalizing k with
  | nil => cases k <;> rfl
  | cons r P ih =>
    cases k with
    | zero => cases h
    | succ k =>
      rw [platformStep, ih h]
      rfl

/-! ## An access at a platform address -/

/-- The address is in the window of the block (20_memory.md R51). -/
def InWindow (addr : Nat) (q : Placed) : Prop := baseOf q ≤ addr ∧ addr < baseOf q + 256

/-- The access as a transaction of the block that it reaches. -/
def accessTxn (addr : Nat) (we : Bool) (be : BitVec 4) (wdata : Word) (q : Placed) : Txn :=
  { we := we, addr := BitVec.ofNat 8 (addr - baseOf q), be := be, wdata := wdata }

theorem not_inWindow_iff {addr : Nat} {q : Placed} : ¬ InWindow addr q ↔ addr < baseOf q ∨ baseOf q + 256 ≤ addr := by
  unfold InWindow
  omega

theorem platformAccess_cons_inside {addr : Nat} {q : Placed} (h : InWindow addr q) (we : Bool) (be : BitVec 4)
    (wdata : Word) (P : Platform) : platformAccess addr we be wdata (q :: P) =
      mapNext (fun t => { q with st := t } :: P) (transact (accessTxn addr we be wdata q) q.st) := by
  simp only [platformAccess, offsetIn_inside h.1 h.2, accessTxn]

theorem platformAccess_cons_outside {addr : Nat} {q : Placed} (h : ¬ InWindow addr q) (we : Bool) (be : BitVec 4)
    (wdata : Word) (P : Platform) : platformAccess addr we be wdata (q :: P) =
      mapNext (q :: ·) (platformAccess addr we be wdata P) := by
  simp only [platformAccess, offsetIn_outside (not_inWindow_iff.mp h)]

/-- An access in no window changes nothing (log 13); any other is a transaction of one block whose window holds the
address. -/
theorem platformAccess_cases (addr : Nat) (we : Bool) (be : BitVec 4) (wdata : Word) (P : Platform) :
    ((∀ q ∈ P, ¬ InWindow addr q) ∧ platformAccess addr we be wdata P = .next P) ∨
    ∃ k q t, P[k]? = some q ∧ InWindow addr q ∧ transact (accessTxn addr we be wdata q) q.st = .next t ∧
      platformAccess addr we be wdata P = .next (setState k q t P) := by
  induction P with
  | nil => exact .inl ⟨fun q hq => absurd hq List.not_mem_nil, rfl⟩
  | cons r P ih =>
    by_cases hr : InWindow addr r
    · obtain ⟨b, a, ht, -⟩ := transact_spec (accessTxn addr we be wdata r) r.st
      refine .inr ⟨0, r, _, rfl, hr, ht, ?_⟩
      rw [platformAccess_cons_inside hr, ht]
      rfl
    · rw [platformAccess_cons_outside hr]
      obtain ⟨hout, hP⟩ | ⟨k, q, t, hq, hin, ht, hP⟩ := ih
      · refine .inl ⟨List.forall_mem_cons.mpr ⟨hr, hout⟩, ?_⟩
        rw [hP]
        rfl
      · refine .inr ⟨k + 1, q, t, hq, hin, ht, ?_⟩
        rw [hP]
        rfl

/-- On a well-formed platform an address is in one window at most. -/
theorem index_unique_of_inWindow {P : Platform} (hwf : platformWf P = true) {addr j k : Nat} {q r : Placed}
    (hj : P[j]? = some q) (hq : InWindow addr q) (hk : P[k]? = some r) (hr : InWindow addr r) : j = k := by
  simp only [platformWf, Bool.and_eq_true, decide_eq_true_eq] at hwf
  obtain ⟨-, hnodup⟩ := hwf
  have hlen : j < (P.map baseOf).length := by
    rw [List.length_map]
    exact (List.getElem?_eq_some_iff.mp hj).1
  apply (List.getElem?_inj hlen hnodup).mp
  rw [List.getElem?_map, List.getElem?_map, hj, hk, Option.map_some, Option.map_some,
    baseOf_eq_of_common_address hq.1 hq.2 hr.1 hr.2]

/-! ## The frames -/

theorem platformStep_frame {k : Nat} {P Q : Platform} (h : platformStep k P = .next Q) :
    Q.length = P.length ∧ (∀ j, j ≠ k → Q[j]? = P[j]?) ∧
    (∀ q, P[k]? = some q → ∃ t, step q.st = .next t ∧ Q[k]? = some { q with st := t }) := by
  cases hk : P[k]? with
  | none =>
    rw [platformStep_of_none hk] at h
    cases h
    exact ⟨rfl, fun _ _ => rfl, fun q hq => by simp at hq⟩
  | some q =>
    obtain ⟨t, ht⟩ := exists_step_eq_next q.st
    rw [platformStep_of_getElem? hk ht] at h
    cases h
    refine ⟨setState_length k q t P, fun j hj => setState_other hj q t P, fun r hr => ?_⟩
    cases hr
    exact ⟨t, ht, setState_self hk t⟩

/-- An access leaves every block whose window does not hold the address, and moves no block. -/
theorem platformAccess_frame {P Q : Platform} {addr : Nat} {we : Bool} {be : BitVec 4} {wdata : Word}
    (h : platformAccess addr we be wdata P = .next Q) :
    Q.length = P.length ∧ ∀ (j : Nat) (q : Placed), P[j]? = some q →
      (¬ InWindow addr q → Q[j]? = some q) ∧ (∃ t, Q[j]? = some { q with st := t }) := by
  obtain ⟨-, hP⟩ | ⟨k, q, t, hk, hin, -, hP⟩ := platformAccess_cases addr we be wdata P
  · rw [hP] at h
    cases h
    exact ⟨rfl, fun j r hr => ⟨fun _ => hr, r.st, hr⟩⟩
  · rw [hP] at h
    cases h
    refine ⟨setState_length k q t P, fun j r hr => ?_⟩
    by_cases hj : j = k
    · subst hj
      obtain rfl := Option.some.inj (hk.symm.trans hr)
      exact ⟨fun hout => absurd hin hout, t, setState_self hk t⟩
    · rw [setState_other hj]
      exact ⟨fun _ => hr, r.st, hr⟩

/-- On a well-formed platform an access in the window of block `k` is that block's transaction. -/
theorem platformAccess_inside {P : Platform} (hwf : platformWf P = true) {addr k : Nat} {q : Placed}
    (hk : P[k]? = some q) (hin : InWindow addr q) (we : Bool) (be : BitVec 4) (wdata : Word) :
    ∃ t, platformAccess addr we be wdata P = .next (setState k q t P) ∧
      transact (accessTxn addr we be wdata q) q.st = .next t := by
  obtain ⟨hout, -⟩ | ⟨j, r, t, hj, hin', ht, hP⟩ := platformAccess_cases addr we be wdata P
  · exact absurd hin (hout q (List.mem_of_getElem? hk))
  · obtain rfl := index_unique_of_inWindow hwf hj hin' hk hin
    obtain rfl := Option.some.inj (hj.symm.trans hk)
    exact ⟨t, hP, ht⟩

theorem platformAccess_outside {P : Platform} {addr : Nat} (hout : ∀ q ∈ P, ¬ InWindow addr q) (we : Bool)
    (be : BitVec 4) (wdata : Word) : platformAccess addr we be wdata P = .next P := by
  obtain ⟨-, hP⟩ | ⟨j, r, t, hj, hin, -⟩ := platformAccess_cases addr we be wdata P
  · exact hP
  · exact absurd hin (hout r (List.mem_of_getElem? hj))

/-! ## The statement -/

/-- Settles O48: a step replaces the state of block k, and an access that of the one block whose window holds the
address, if there is one. -/
theorem blocksShareNoState : Obligations.BlocksShareNoState := by
  refine ⟨fun k P Q => platformStep_frame, fun P Q addr we be wdata h => ?_,
    fun P addr we be wdata hwf => ⟨fun k q hk hlow hhigh => ?_, fun hout => ?_⟩⟩
  · simpa only [not_inWindow_iff] using platformAccess_frame h
  · obtain ⟨t, hP, ht⟩ := platformAccess_inside hwf hk ⟨hlow, hhigh⟩ we be wdata
    exact ⟨_, t, hP, ht, setState_self hk t, setState_length k q t P, fun j hj => setState_other hj q t P⟩
  · exact platformAccess_outside (fun q hq => not_inWindow_iff.mpr (hout q hq)) we be wdata

end Sys2Proof.Machine
end
